-- ==== Sys2Proof/Config.lean ====
section
/-! DEFINITION. The parameters of the hardware (00_scope.md section 4, 10_state.md R48) and the free draws.
A parameter to which the spec gives a value is a constant with that value; what it leaves OPEN, and every draw,
is an opaque constant with no body, so that no proof can rest on a value of it. -/

namespace Sys2Proof.Config

/-- `BLOCK_BYTES` (00_scope.md R5): bytes in one keystream block. -/
@[simp] abbrev blockBytes : Nat := 64

/-- `SEED_WORDS` (00_scope.md R6). -/
@[simp] abbrev seedWords : Nat := 8

/-- `SEED_WORD_BITS` (00_scope.md R6). -/
@[simp] abbrev seedWordBits : Nat := 32

/-- `GAP_BLOCKS` (00_scope.md R11): blocks left unused between the primary region and the first extra block. -/
@[simp] abbrev gapBlocks : Nat := 1

/-- `COUNTER_BITS` (00_scope.md R8): the width of a block counter, the spec's value for this hardware. -/
@[simp] abbrev counterBits : Nat := 64

/-- `COUNT_BITS` (00_scope.md R9). -/
@[simp] abbrev countBits : Nat := 32

/-- How many engines stand beside the first: `NUM_ENGINES` less one (00_scope.md R12), OPEN. -/
opaque otherEngines : Nat

/-- `NUM_ENGINES` (00_scope.md R12): OPEN, at least 1 by its form (log entry 12). -/
@[simp] abbrev numEngines : Nat := otherEngines + 1

/-- The seed as DERIVE takes it: the eight words `(SEED0, ..., SEED7)` (10_state.md R21). -/
abbrev Seed := Vector (BitVec seedWordBits) seedWords

/-- `NONCE_BITS` (00_scope.md R10): OPEN. -/
opaque nonceBits : Nat

/-- `NONCE` (00_scope.md R10, 10_state.md R38): OPEN, a constant of the configuration, never state. -/
opaque nonce : BitVec nonceBits

/-- `Stream(seed, nonce, k)` (40_keystream_source.md R120): byte `k` of the keystream, an uninterpreted total
function. Nothing is assumed of it but that it is a function (R123). -/
opaque stream : Seed → BitVec nonceBits → Nat → BitVec 8

/-- `MAX_COUNT` (00_scope.md R9): OPEN, at most `2^32 - 1` by its type. -/
opaque maxCount : BitVec countBits

/-- The draw `init_ok` of a KSINIT taken in step `n` (43_host_interface.md R194, 93 U2). -/
opaque initOk : Nat → Bool

/-- The draw that a read of `STATUS.PHASE` in step `n` returns while the engine is busy, less one: the field
reads as one of the busy codes 1 to 10 (10_state.md R25, 93 U3). -/
opaque busyPhase : Nat → Fin 10

/-- What the sequencer finds, in step `n`, in working register number `r` when it holds no value
("unspecified contents", 10_state.md R46): a free value; no run from reset reads it (log entry 6). -/
opaque freeRegister : Nat → Nat → BitVec 64

/-- The remainder of `a` by zero, a value the spec does not state (00_scope.md R15, 91 N19): a free value as a
function of the dividend; no run from reset asks for it (log entry 7). -/
opaque remByZero : Nat → Nat

end Sys2Proof.Config
end

