-- ==== Sys2Proof/Word.lean ====
section
/-! DEFINITION. The plain data every other file speaks of: bytes, buffers, widths, phases, codes, and the records
of formats T and K (30_encoding.md). Numbers and codes are given in Decode.lean and Machine/. -/

namespace Sys2Proof

/-- The unit of the address spaces PBUF, XBLK and KSTREAM (20_memory.md R60). -/
abbrev Byte := BitVec 8

/-- The two destinations of DERIVE (40_keystream_source.md R126): `PBUF` and `XBLK`, numbered by `Buffer.code`. -/
inductive Buffer where
  | pbuf
  | xblk
deriving DecidableEq, Repr

/-- The element widths (00_scope.md R3), as the width tag `WT` selects them (10_state.md R29): tag 0 is `w32`,
tag 1 is `w64`. -/
inductive Width where
  | w32
  | w64
deriving DecidableEq, Repr

/-- `PHASE` (10_state.md R26, 30_encoding.md R95): exactly the twelve phases of R96. -/
inductive Phase where
  | idle
  | chk
  | dpri
  | dext
  | thr
  | ld
  | tst
  | pull
  | refill
  | red
  | fin
  | done
deriving DecidableEq, Repr

/-- `ERR` (10_state.md R27): no error, or the cause of the last aborted call (60_exceptions.md R225). -/
inductive ErrorCode where
  | none
  | initialization
  | validation
  | counterExhausted
deriving DecidableEq, Repr

/-- The response of a host transaction (30_encoding.md R99), numbered by `ResponseCode.code`. -/
inductive ResponseCode where
  | ack
  | nakBusy
  | nakIllegal
  | nakAccess
deriving DecidableEq, Repr

/-- What the block hands back for one transaction: the response, and the data of an `RD` or `RDP` answered
`ACK` (30_encoding.md R106). -/
structure Reply where
  code : ResponseCode
  data : Option Nat
deriving DecidableEq, Repr

/-- A host transaction, format T (30_encoding.md R106). The record is not bit-packed: `reg`, `addr`, `size` and
`data` are unsigned integers; a value that does not fit is answered, not cut. -/
structure Transaction where
  kind : BitVec 2
  reg  : Nat
  addr : Nat
  size : Nat
  data : Nat
deriving DecidableEq, Repr

/-- A keystream request, format K (30_encoding.md R97). -/
structure Request where
  dst     : Buffer
  seed    : Config.Seed
  nonce   : BitVec Config.nonceBits
  counter : BitVec Config.counterBits
  length  : BitVec 35
deriving DecidableEq, Repr

end Sys2Proof
end

