-- ==== Sys2Proof/Syntax.lean ====
section
/-! DEFINITION. The instructions: one constructor per row of spec/opcode_table.json. -/

namespace Sys2Proof

/-- One constructor per row of the opcode table, with the operands its encoding carries. The micro-operations
have none: all theirs are implicit (30_encoding.md R100). -/
inductive Instr where
  /-- `RD reg` (43_host_interface.md R193). -/
  | rd (reg : Nat)
  /-- `WR reg, value` (43_host_interface.md R192). -/
  | wr (reg : Nat) (data : Nat)
  /-- `RDP.size addr` (43_host_interface.md R198). -/
  | rdp (addr : Nat) (size : Nat)
  /-- `KSINIT` (43_host_interface.md R194). -/
  | ksinit
  /-- `GEN.32` (43_host_interface.md R195). -/
  | gen32
  /-- `GEN.64` (43_host_interface.md R196). -/
  | gen64
  /-- `IDLE`, a resting phase (10_state.md R26). -/
  | idle
  /-- `CHK` (41_sampler_setup.md R141). -/
  | chk
  /-- `DPRI` (41_sampler_setup.md R142). -/
  | dpri
  /-- `DEXT` (41_sampler_setup.md R143). -/
  | dext
  /-- `THR` (41_sampler_setup.md R144). -/
  | thr
  /-- `LD` (42_sampler_loop.md R161). -/
  | ld
  /-- `TST` (42_sampler_loop.md R162). -/
  | tst
  /-- `PULL` (42_sampler_loop.md R163). -/
  | pull
  /-- `RFL` (42_sampler_loop.md R164). -/
  | refill
  /-- `RED` (42_sampler_loop.md R165). -/
  | red
  /-- `FIN` (42_sampler_loop.md R166). -/
  | fin
  /-- `DONE`, a resting phase (10_state.md R26). -/
  | done
  /-- `DERIVE dst, counter, length`, seed and nonce implicit (40_keystream_source.md R121, 30_encoding.md R104). -/
  | derive (dst : Buffer) (counter : BitVec Config.counterBits) (length : BitVec 35)
deriving DecidableEq, Repr

end Sys2Proof
end

