-- ==== Sys2Proof/WellFormed.lean ====
section
/-! DEFINITION. Which instructions an encoding stands for. A host transaction is well-formed whatever its
operands, because the block answers every one of them (30_encoding.md R99, R106). -/

namespace Sys2Proof

/-- The three command words (30_encoding.md R92). -/
def isCommandWord (data : Nat) : Bool :=
  data == 0x00000001 || data == 0x00000002 || data == 0x00000012

/-- A write of a command word to `CMD` is spelled as the command it is (30_encoding.md R102); a keystream
request asks for at least one byte (40_keystream_source.md R121), and for no more than XBLK has when that is
the destination (20_memory.md R60). -/
def Instr.wf : Instr → Bool
  | .rd _ => true
  | .wr reg data => !(reg == 11 && isCommandWord data)
  | .rdp _ _ => true
  | .ksinit => true
  | .gen32 => true
  | .gen64 => true
  | .idle => true
  | .chk => true
  | .dpri => true
  | .dext => true
  | .thr => true
  | .ld => true
  | .tst => true
  | .pull => true
  | .refill => true
  | .red => true
  | .fin => true
  | .done => true
  | .derive dst _ length =>
      (1 ≤ length.toNat : Bool) && (dst == .pbuf || (length.toNat ≤ Config.blockBytes : Bool))

end Sys2Proof
end

