-- ==== Sys2Proof/Decode.lean ====
section
/-! DEFINITION. The decoders of the four formats of 30_encoding.md R90, total and rejecting by name, and the
encoder. Formats T and K are records in the spec, with no packing into bits (R97, R106); formats C and P are
words of 32 and 4 bits. -/

namespace Sys2Proof

/-- The four kinds of encoded thing (30_encoding.md R90). -/
inductive Encoded where
  /-- Format T, decoded by the host port. -/
  | transaction (t : Transaction)
  /-- Format C, decoded by the command decoder. -/
  | command (w : BitVec 32)
  /-- Format P, decoded by the sequencer. -/
  | phase (p : BitVec 4)
  /-- Format K, decoded by the keystream primitive. -/
  | request (r : Request)
deriving DecidableEq, Repr

/-- Why an encoded thing stands for no instruction. -/
inductive Reject where
  /-- Transaction kind 3 (30_encoding.md R106). -/
  | reservedKind
  /-- A command word that is none of the three (30_encoding.md R94). -/
  | illegalCommand (w : BitVec 32)
  /-- Phase codes 12 to 15 (30_encoding.md R96). -/
  | reservedPhase (p : BitVec 4)
deriving DecidableEq, Repr

/-- The phase codes (30_encoding.md R95). -/
def Phase.code : Phase → BitVec 4
  | .idle => 0
  | .chk => 1
  | .dpri => 2
  | .dext => 3
  | .thr => 4
  | .ld => 5
  | .tst => 6
  | .pull => 7
  | .refill => 8
  | .red => 9
  | .fin => 10
  | .done => 11

/-- The phase a code names; codes 12 to 15 are reserved (30_encoding.md R95, R96). -/
def Phase.ofCode (p : BitVec 4) : Option Phase :=
  match p.toNat with
  | 0 => some .idle
  | 1 => some .chk
  | 2 => some .dpri
  | 3 => some .dext
  | 4 => some .thr
  | 5 => some .ld
  | 6 => some .tst
  | 7 => some .pull
  | 8 => some .refill
  | 9 => some .red
  | 10 => some .fin
  | 11 => some .done
  | _ => none

/-- The 1-bit `dst` field of a keystream request (30_encoding.md R97). -/
def Buffer.code : Buffer → BitVec 1
  | .pbuf => 0
  | .xblk => 1

/-- The 2-bit response codes of a host transaction (30_encoding.md R99). -/
def ResponseCode.code : ResponseCode → BitVec 2
  | .ack => 0
  | .nakBusy => 1
  | .nakIllegal => 2
  | .nakAccess => 3

/-- The micro-operation, or the rest, that a phase names (10_state.md R26). -/
def Phase.instr : Phase → Instr
  | .idle => .idle
  | .chk => .chk
  | .dpri => .dpri
  | .dext => .dext
  | .thr => .thr
  | .ld => .ld
  | .tst => .tst
  | .pull => .pull
  | .refill => .refill
  | .red => .red
  | .fin => .fin
  | .done => .done

/-- Format P (30_encoding.md R95). -/
def decodePhase (p : BitVec 4) : Except Reject Instr :=
  match Phase.ofCode p with
  | some ph => .ok ph.instr
  | none => .error (.reservedPhase p)

/-- Format C: three words are commands, matched on all 32 bits (30_encoding.md R92, R94). -/
def decodeCommand (w : BitVec 32) : Except Reject Instr :=
  if w = 0x00000001#32 then .ok .ksinit
  else if w = 0x00000002#32 then .ok .gen32
  else if w = 0x00000012#32 then .ok .gen64
  else .error (.illegalCommand w)

/-- A register write: one to `CMD` (register 11) whose data is a command word is that command
(43_host_interface.md R197); any other, an illegal word among them, is the write itself, which answers it. -/
def decodeWrite (reg data : Nat) : Instr :=
  if reg = 11 ∧ data < 2 ^ 32 then
    match decodeCommand (BitVec.ofNat 32 data) with
    | .ok i => i
    | .error _ => .wr reg data
  else .wr reg data

/-- Format T, by `kind`; fields a kind does not use are ignored (30_encoding.md R106). -/
def decodeTransaction (t : Transaction) : Except Reject Instr :=
  match t.kind.toNat with
  | 0 => .ok (.rd t.reg)
  | 1 => .ok (decodeWrite t.reg t.data)
  | 2 => .ok (.rdp t.addr t.size)
  | _ => .error .reservedKind

/-- Format K: the keystream source has one operation, so the record has no opcode (30_encoding.md R97). The
seed and nonce fields are DERIVE's implicit operands (40_keystream_source.md R121). -/
def decodeRequest (r : Request) : Except Reject Instr :=
  .ok (.derive r.dst r.counter r.length)

/-- The decoder: each format by its own. -/
def decode : Encoded → Except Reject Instr
  | .transaction t => decodeTransaction t
  | .command w => decodeCommand w
  | .phase p => decodePhase p
  | .request r => decodeRequest r

/-- A register write as the host sends it (30_encoding.md R102, R106). -/
def writeTransaction (reg data : Nat) : Transaction :=
  { kind := 1#2, reg := reg, addr := 0, size := 0, data := data }

/-- The encoder, from the tables of 30_encoding.md R92, R95, R97, R102 and R106. A command is sent as the write
of its word to `CMD`; `seed` is the register vector a keystream request carries. -/
def encode (seed : Config.Seed) : Instr → Encoded
  | .rd reg => .transaction { kind := 0#2, reg := reg, addr := 0, size := 0, data := 0 }
  | .wr reg data => .transaction (writeTransaction reg data)
  | .rdp addr size => .transaction { kind := 2#2, reg := 0, addr := addr, size := size, data := 0 }
  | .ksinit => .transaction (writeTransaction 11 0x00000001)
  | .gen32 => .transaction (writeTransaction 11 0x00000002)
  | .gen64 => .transaction (writeTransaction 11 0x00000012)
  | .idle => .phase Phase.idle.code
  | .chk => .phase Phase.chk.code
  | .dpri => .phase Phase.dpri.code
  | .dext => .phase Phase.dext.code
  | .thr => .phase Phase.thr.code
  | .ld => .phase Phase.ld.code
  | .tst => .phase Phase.tst.code
  | .pull => .phase Phase.pull.code
  | .refill => .phase Phase.refill.code
  | .red => .phase Phase.red.code
  | .fin => .phase Phase.fin.code
  | .done => .phase Phase.done.code
  | .derive dst counter length =>
      .request { dst := dst, seed := seed, nonce := Config.nonce, counter := counter, length := length }

/-- The transaction record whose `kind` is the table's pattern and whose other fields are 0. -/
def tableTransaction (w : Nat) : Transaction :=
  { kind := BitVec.ofNat 2 w, reg := 0, addr := 0, size := 0, data := 0 }

/-- The keystream request record of zeros. -/
def tableRequest : Request :=
  { dst := .pbuf, seed := Vector.replicate Config.seedWords 0, nonce := Config.nonce, counter := 0, length := 0 }

/-- What the opcode table's pattern of `nbits` bits is, as an encoded thing (30_encoding.md R105): 32 bits are a
command word, 4 bits (8 in whole bytes) a phase code, 2 bits a transaction kind, none a keystream request. The
2-bit kinds and the 4-bit codes are told apart by their decoder, not by their bits (R90): in whole bytes the
reading as a phase code is taken (log entry 14). -/
def tableEncoded (nbits w : Nat) : Option Encoded :=
  match nbits with
  | 0 => if w = 0 then some (.request tableRequest) else none
  | 2 => if w < 4 then some (.transaction (tableTransaction w)) else none
  | 4 => if w < 16 then some (.phase (BitVec.ofNat 4 w)) else none
  | 8 => if w < 16 then some (.phase (BitVec.ofNat 4 w)) else none
  | 32 => if w < 2 ^ 32 then some (.command (BitVec.ofNat 32 w)) else none
  | _ => none

/-- The instruction the decoder reads from an opcode-table pattern. -/
def decodeTableWord (nbits w : Nat) : Option Instr :=
  match tableEncoded nbits w with
  | some e =>
    match decode e with
    | .ok i => some i
    | .error _ => none
  | none => none

end Sys2Proof
end

