-- ==== Sys2Proof/Machine/State.lean ====
section
/-! DEFINITION. The state of the machine (10_state.md), the reasons a step can stop, and the state after reset
(10_state.md R46). -/

namespace Sys2Proof.Machine

/-- A buffer's bytes: (address, byte) cells with strictly rising addresses. An unlisted address holds no value
(10_state.md R40, 93 U13, U14). -/
abbrev Memory := List Host.Cell

/-- The one canonical form of a memory. No cell can equal what an unlisted address reads as, which is no value. -/
abbrev Memory.wf (m : Memory) : Prop := m.Pairwise (fun c d => c.1 < d.1)

/-- The state of one engine, exactly what 10_state.md R20 lists. A working register is `none` when it holds no
value, and a buffer is `none` when it is invalid: both are the spec's own states (10_state.md section 4, R40,
R41), told to the host as NAK_ACCESS. -/
structure Engine where
  /-- `SEED0..SEED7` (R21). -/
  seed  : Config.Seed
  /-- `COUNT` (R22). -/
  count : BitVec Config.countBits
  /-- `LO` (R23). -/
  lo    : BitVec 64
  /-- `HI` (R23). -/
  hi    : BitVec 64
  /-- `PHASE` (R26), with `IDX` the program counter (R39). -/
  phase : Phase
  /-- `ERR` (R27). -/
  err   : ErrorCode
  /-- `WT` (R29). -/
  wt    : Width
  /-- `BLEN` (R30). -/
  blen  : Option (BitVec 35)
  /-- `PBC` (R31). -/
  pbc   : Option (BitVec Config.counterBits)
  /-- `XCTR` (R32). -/
  xctr  : Option (BitVec Config.counterBits)
  /-- `XCUR` (R33). -/
  xcur  : Option (BitVec 5)
  /-- `RANGE` (R34). -/
  range : Option (BitVec 64)
  /-- `MIN` (R35). -/
  min   : Option (BitVec 64)
  /-- `IDX` (R36). -/
  idx   : Option (BitVec 32)
  /-- `U` (R37). -/
  u     : Option (BitVec 64)
  /-- `PBUF` (R40). -/
  pbuf  : Option Memory
  /-- `XBLK` (R41). -/
  xblk  : Option Memory
deriving DecidableEq, Repr

/-- One move of an agent, as the agenda lists them (log entry 1). -/
inductive Event where
  /-- The host sends a transaction to the focused engine's port (43_host_interface.md R201). -/
  | host (t : Transaction)
  /-- The focused engine's sequencer takes its step (10_state.md R26). -/
  | engine
  /-- The reset event (70_reset_and_hazards.md R250). -/
  | reset
  /-- From here on the moves are those of another engine, which changes places with peer number `k`
  (60_exceptions.md R235); nothing happens in the hardware. -/
  | select (k : Nat)
deriving DecidableEq, Repr

/-- The state of the machine. -/
structure State where
  /-- The engine whose moves the agenda speaks of. -/
  eng     : Engine
  /-- The other engines, when `NUM_ENGINES > 1` (60_exceptions.md R235). -/
  peers   : List Engine
  /-- `KS_READY` (10_state.md R28), shared by all engines. -/
  ksReady : Bool
  /-- The model's own: the coming moves, oldest first; when none is listed the engine moves (log entry 1). -/
  agenda  : List Event
  /-- The model's own: the responses given to the host so far, newest first (30_encoding.md R99, R106). DESIGN
  CHOICE (log entry 3): the ports of all engines answer into this one list, and a response does not name its
  engine; the spec gives each engine a port of its own and does not say where responses are kept. -/
  replies : List Reply
  /-- The model's own: how many steps have been taken; it numbers the free draws (log entry 4). -/
  stepNo  : Nat
deriving DecidableEq, Repr

/-- Why a step stops. No state that a run from reset reaches gives one of these. -/
inductive Fault where
  /-- Raised by LD, PULL and RED, and by a DERIVE longer than XBLK: the access, which begins at `addr`, meets a
  byte of `buf` that does not exist or holds no value (93 U13, U14). Safe: the spec gives such a byte no value
  and the model goes no further (log entry 8). -/
  | absentByte (buf : Buffer) (addr : Nat)
  /-- Raised by the step when the phase code is reserved (30_encoding.md R96). Safe: no `Phase` has such a
  code. -/
  | reservedPhase (p : BitVec 4)
deriving DecidableEq, Repr

/-- Why an instruction has no meaning. -/
inductive Refusal where
  /-- Raised by exec for an instruction that has no meaning yet. Safe. No arm of exec raises it. -/
  | notModelled (mnemonic : String)
deriving DecidableEq, Repr

/-- What a step or a meaning answers. -/
abbrev Result := Host.Outcome State Fault Refusal

/-- An engine after reset (10_state.md R46). -/
def Engine.reset : Engine where
  seed  := Vector.replicate Config.seedWords 0
  count := 0
  lo    := 0
  hi    := 0
  phase := .idle
  err   := .none
  wt    := .w32
  blen  := none
  pbc   := none
  xctr  := none
  xcur  := none
  range := none
  min   := none
  idx   := none
  u     := none
  pbuf  := none
  xblk  := none

/-- The machine after reset (10_state.md R46, 70_reset_and_hazards.md R250): `NUM_ENGINES` engines, all alike
(60_exceptions.md R235). -/
def State.reset : State where
  eng     := Engine.reset
  peers   := List.replicate (Config.numEngines - 1) Engine.reset
  ksReady := false
  agenda  := []
  replies := []
  stepNo  := 0

end Sys2Proof.Machine
end

