-- ==== Sys2Proof/Machine/Operands.lean ====
section
/-! DEFINITION. The operands of the micro-operations, all implicit (30_encoding.md R100): widths from WT, the
bounds at the call's width, and the working registers. Arithmetic is on unbounded integers with an explicit mod
(00_scope.md R13). -/

namespace Sys2Proof

/-- `WB` (00_scope.md R7, 10_state.md R29). -/
def Width.bytes : Width → Nat
  | .w32 => 4
  | .w64 => 8

/-- `WBITS` (00_scope.md R7). -/
def Width.bits (w : Width) : Nat := 8 * w.bytes

/-- `EPB`, elements per block (00_scope.md R7). -/
def Width.epb (w : Width) : Nat := Config.blockBytes / w.bytes

/-- The tag bit of a width (10_state.md R29). -/
def Width.tag : Width → Nat
  | .w32 => 0
  | .w64 => 1

namespace Machine

/-- `toS_k(p)`, the signed view of a `k`-bit pattern (00_scope.md R14). -/
def toS (k p : Nat) : Int :=
  if p < 2 ^ (k - 1) then (p : Int) else (p : Int) - 2 ^ k

/-- `(a - b) mod 2^k` (00_scope.md R13). -/
def subMod (k a b : Nat) : Nat :=
  (((a : Int) - (b : Int)) % 2 ^ k).toNat

/-- `ceil(a / b)` (00_scope.md R15). -/
def ceilDiv (a b : Nat) : Nat := (a + b - 1) / b

/-- `a mod b`; the spec never uses it with `b = 0` (00_scope.md R15), and there the value is free. -/
def remainder (a b : Nat) : Nat :=
  if b = 0 then Config.remByZero a else a % b

/-- `lo_u` (10_state.md R23). -/
def Engine.loU (e : Engine) : Nat := e.lo.toNat % 2 ^ e.wt.bits

/-- `hi_u` (10_state.md R23). -/
def Engine.hiU (e : Engine) : Nat := e.hi.toNat % 2 ^ e.wt.bits

/-- `lo`, the signed lower bound at the call's width (10_state.md R23). -/
def Engine.loS (e : Engine) : Int := toS e.wt.bits e.loU

/-- `hi`, the signed upper bound at the call's width (10_state.md R23). -/
def Engine.hiS (e : Engine) : Int := toS e.wt.bits e.hiU

/-- The value the sequencer finds in working register number `num`: the register's own, or a free value where
it holds none (10_state.md R46; log entry 6). -/
def State.valueOf {w : Nat} (s : State) (num : Nat) (o : Option (BitVec w)) : BitVec w :=
  o.getD ((Config.freeRegister s.stepNo num).setWidth w)

/-- `BLEN` as an operand (register 13, 10_state.md R30). -/
def State.blenValue (s : State) : BitVec 35 := s.valueOf 13 s.eng.blen

/-- `XCTR` as an operand (register 15, 10_state.md R32). -/
def State.xctrValue (s : State) : BitVec Config.counterBits := s.valueOf 15 s.eng.xctr

/-- `XCUR` as an operand (register 16, 10_state.md R33). -/
def State.xcurValue (s : State) : BitVec 5 := s.valueOf 16 s.eng.xcur

/-- `RANGE` as an operand (register 17, 10_state.md R34). -/
def State.rangeValue (s : State) : BitVec 64 := s.valueOf 17 s.eng.range

/-- `MIN` as an operand (register 18, 10_state.md R35). -/
def State.minValue (s : State) : BitVec 64 := s.valueOf 18 s.eng.min

/-- `IDX` as an operand (register 19, 10_state.md R36). -/
def State.idxValue (s : State) : BitVec 32 := s.valueOf 19 s.eng.idx

/-- `U` as an operand (register 20, 10_state.md R37). -/
def State.uValue (s : State) : BitVec 64 := s.valueOf 20 s.eng.u

end Machine

end Sys2Proof
end

