-- ==== Sys2Proof/Machine/Flags.lean ====
section
/-! DEFINITION. The status register. There are no condition flags (10_state.md section 3); STATUS is a view of
named state, not storage (R25). -/

namespace Sys2Proof.Machine

/-- The code of an error (60_exceptions.md R225, 30_encoding.md R98). -/
def errorCode : ErrorCode → Nat
  | .none => 0
  | .initialization => 1
  | .validation => 2
  | .counterExhausted => 3

/-- `STATUS.STATE`, a function of `PHASE` (10_state.md R26): 0 `IDLE`, 1 `BUSY`, 2 `DONE`. -/
def stateCode : Phase → Nat
  | .idle => 0
  | .chk => 1
  | .dpri => 1
  | .dext => 1
  | .thr => 1
  | .ld => 1
  | .tst => 1
  | .pull => 1
  | .refill => 1
  | .red => 1
  | .fin => 1
  | .done => 2

/-- `STATE = BUSY` (10_state.md R26). -/
def Engine.busy (e : Engine) : Bool := stateCode e.phase == 1

/-- What a read of `STATUS.PHASE` returns: the code of the phase, and while the engine is busy a draw among the
codes 1 to 10 (10_state.md R25, 93 U3). -/
def State.phaseField (s : State) : Nat :=
  if s.eng.busy then (Config.busyPhase s.stepNo).val + 1 else s.eng.phase.code.toNat

/-- `STATUS` (10_state.md R25): `STATE` in bits 1:0, `KS_READY` in bit 2, `PHASE` in bits 7:4, `ERR` in bits
11:8, `WT` in bit 12, the rest 0. -/
def State.status (s : State) : Nat :=
  stateCode s.eng.phase + s.ksReady.toNat * 2 ^ 2 + s.phaseField * 2 ^ 4 + errorCode s.eng.err * 2 ^ 8
    + s.eng.wt.tag * 2 ^ 12

end Sys2Proof.Machine
end

