-- ==== Sys2Proof/Machine/Ops.lean ====
section
/-! DEFINITION. The named operations over memory, registers and the machine that every meaning is written with:
byte memory, the register file, responses, error entry, acceptance of a call, the keystream primitive, reset. -/

namespace Sys2Proof.Machine

/-! ### Byte memory (20_memory.md) -/

/-- The byte at an address, if it holds a value. -/
def Memory.byteAt : Memory → Nat → Option Byte
  | [], _ => none
  | c :: m, a => if c.1 = a then some c.2 else Memory.byteAt m a

/-- Put a byte at an address; the cells stay in rising order. -/
def Memory.putByte : Memory → Nat → Byte → Memory
  | [], a, b => [(a, b)]
  | c :: m, a, b =>
    if a < c.1 then (a, b) :: c :: m
    else if a = c.1 then (a, b) :: m
    else c :: Memory.putByte m a b

/-- `MemRead(space, a, n)`, little-endian (20_memory.md R65, R66); none if some byte holds no value. -/
def Memory.readLE (m : Memory) (a : Nat) : Nat → Option Nat
  | 0 => some 0
  | n + 1 =>
    match Memory.byteAt m a, Memory.readLE m (a + 1) n with
    | some b, some v => some (b.toNat + 256 * v)
    | _, _ => none

/-- `MemWrite(space, a, n, v)`, little-endian (20_memory.md R65, R66). -/
def Memory.writeLE (m : Memory) (a : Nat) (n v : Nat) : Memory :=
  match n with
  | 0 => m
  | n + 1 => Memory.writeLE (Memory.putByte m a (BitVec.ofNat 8 v)) (a + 1) n (v / 256)

/-- Bytes `0 .. len-1` replaced by `f 0, ..., f (len-1)`, all at once (20_memory.md R70). -/
def Memory.fill (m : Memory) (len : Nat) (f : Nat → Byte) : Memory :=
  (List.range len).map (fun j => (j, f j)) ++ m.filter (fun c => len ≤ c.1)

/-- The buffer of a name, if it is valid. -/
def Engine.buffer (e : Engine) : Buffer → Option Memory
  | .pbuf => e.pbuf
  | .xblk => e.xblk

/-- Make a buffer valid with the given bytes. -/
def Engine.setBuffer (e : Engine) (b : Buffer) (m : Memory) : Engine :=
  match b with
  | .pbuf => { e with pbuf := some m }
  | .xblk => { e with xblk := some m }

/-- The byte a buffer holds at an address; an invalid buffer holds none (10_state.md R40, R41). -/
def Engine.byteOf (e : Engine) (b : Buffer) (a : Nat) : Option Byte :=
  match e.buffer b with
  | some m => Memory.byteAt m a
  | none => none

/-- `MemRead` on a buffer. -/
def Engine.readBuffer (e : Engine) (b : Buffer) (a n : Nat) : Option Nat :=
  match e.buffer b with
  | some m => Memory.readLE m a n
  | none => none

/-- The byte address of element `j` under the call's width (20_memory.md R62, R63). -/
def Engine.elemAddr (e : Engine) (j : Nat) : Nat := j * e.wt.bytes

/-- `Elem(space, j)` (00_scope.md R15, 20_memory.md R66). -/
def Engine.elem (e : Engine) (b : Buffer) (j : Nat) : Option Nat :=
  e.readBuffer b (e.elemAddr j) e.wt.bytes

/-! ### The machine -/

/-- The machine with another state of the focused engine. -/
def State.withEngine (s : State) (e : Engine) : State := { s with eng := e }

/-- The focused engine's port gives a response (30_encoding.md R99). DESIGN CHOICE (log entry 3): it joins the one
list that the ports of all engines share, without the engine's index. -/
def State.respond (s : State) (r : Reply) : State := { s with replies := r :: s.replies }

/-- Answer `ACK` with no data. -/
def State.ack (s : State) : State := s.respond { code := .ack, data := none }

/-- Answer `ACK` with data. -/
def State.ackData (s : State) (v : Nat) : State := s.respond { code := .ack, data := some v }

/-- Refuse a transaction: a response and no other change (60_exceptions.md R224). -/
def State.nak (s : State) (c : ResponseCode) : State := s.respond { code := c, data := none }

/-- Error entry (60_exceptions.md R228): nothing is saved, because nothing resumes; there is no return operation
beside it (R230): the next accepted call clears `ERR`. -/
def State.raise (s : State) (c : ErrorCode) : State :=
  s.withEngine { s.eng with err := c, pbuf := none, xblk := none, phase := .idle }

/-- Acceptance of a GEN command (10_state.md R47, 43_host_interface.md R195, R196). -/
def Engine.accept (e : Engine) (w : Width) : Engine :=
  { e with
    err := .none, wt := w, phase := .chk, pbuf := none, xblk := none,
    blen := none, pbc := none, xctr := none, xcur := none, range := none, min := none, idx := none, u := none }

/-- The command KSINIT, accepted only when not busy (43_host_interface.md R194, R197). -/
def State.commandKsinit (s : State) : State :=
  if s.eng.busy then s.nak .nakBusy
  else ({ s with ksReady := s.ksReady || Config.initOk s.stepNo } : State).ack

/-- The command GEN at a width, accepted only when not busy (43_host_interface.md R195 to R197). -/
def State.commandGen (s : State) (w : Width) : State :=
  if s.eng.busy then s.nak .nakBusy
  else (s.withEngine (s.eng.accept w)).ack

/-! ### The register file (10_state.md R44) -/

/-- The width of a register; 0 for a number that is no register. -/
def registerWidth (n : Nat) : Nat :=
  match n with
  | 0 => 32
  | 1 => 32
  | 2 => 32
  | 3 => 32
  | 4 => 32
  | 5 => 32
  | 6 => 32
  | 7 => 32
  | 8 => Config.countBits
  | 9 => 64
  | 10 => 64
  | 11 => 32
  | 12 => 32
  | 13 => 35
  | 14 => Config.counterBits
  | 15 => Config.counterBits
  | 16 => 5
  | 17 => 64
  | 18 => 64
  | 19 => 32
  | 20 => 64
  | _ => 0

/-- The value of a stored register, if it holds one: none for `CMD` and `STATUS`, which store nothing, and for a
number that is no register. -/
def Engine.register (e : Engine) (n : Nat) : Option Nat :=
  if h : n < 8 then some (e.seed[n]).toNat
  else
    match n with
    | 8 => some e.count.toNat
    | 9 => some e.lo.toNat
    | 10 => some e.hi.toNat
    | 13 => e.blen.map BitVec.toNat
    | 14 => e.pbc.map BitVec.toNat
    | 15 => e.xctr.map BitVec.toNat
    | 16 => e.xcur.map BitVec.toNat
    | 17 => e.range.map BitVec.toNat
    | 18 => e.min.map BitVec.toNat
    | 19 => e.idx.map BitVec.toNat
    | 20 => e.u.map BitVec.toNat
    | _ => none

/-- Write an argument register, numbers 0 to 10; the others are not written by the host. -/
def Engine.setRegister (e : Engine) (n v : Nat) : Engine :=
  if h : n < 8 then { e with seed := e.seed.set n (BitVec.ofNat Config.seedWordBits v) }
  else
    match n with
    | 8 => { e with count := BitVec.ofNat Config.countBits v }
    | 9 => { e with lo := BitVec.ofNat 64 v }
    | 10 => { e with hi := BitVec.ofNat 64 v }
    | _ => e

/-! ### The keystream primitive (40_keystream_source.md) -/

/-- The request a DERIVE makes: seed and nonce are its implicit operands (R121, R131). -/
def Engine.request (e : Engine) (dst : Buffer) (counter : BitVec Config.counterBits) (length : BitVec 35) :
    Request :=
  { dst := dst, seed := e.seed, nonce := Config.nonce, counter := counter, length := length }

/-- Byte `j` of the answer to a request: byte `counter * 64 + j` of the stream (R121, R122). -/
def keystream (r : Request) (j : Nat) : Byte :=
  Config.stream r.seed r.nonce (r.counter.toNat * Config.blockBytes + j)

/-- A request passes the end of the addressable stream (R129). -/
def requestPastEnd (r : Request) : Bool :=
  2 ^ Config.counterBits * Config.blockBytes < r.counter.toNat * Config.blockBytes + r.length.toNat

/-- The destination filled with the answer, and valid (R121). -/
def Engine.filled (e : Engine) (r : Request) : Engine :=
  e.setBuffer r.dst (Memory.fill ((e.buffer r.dst).getD []) r.length.toNat (keystream r))

/-- `DERIVE dst, c, len` (R121), then `k` on the filled state. An error aborts the step that issued it
(60_exceptions.md R228); XBLK has no byte beyond its 64 (20_memory.md R60). -/
def State.deriveThen (s : State) (dst : Buffer) (counter : BitVec Config.counterBits) (length : BitVec 35)
    (k : State → Result) : Result :=
  if !s.ksReady then .next (s.raise .initialization)
  else if requestPastEnd (s.eng.request dst counter length) then .next (s.raise .counterExhausted)
  else if dst = .xblk ∧ Config.blockBytes < length.toNat then .fault (.absentByte .xblk Config.blockBytes)
  else k (s.withEngine (s.eng.filled (s.eng.request dst counter length)))

/-! ### Events -/

/-- Every engine and the shared flag at their reset values (70_reset_and_hazards.md R250); the model's own
fields go on. -/
def State.resetAll (s : State) : State :=
  { s with eng := Engine.reset, peers := s.peers.map (fun _ => Engine.reset), ksReady := false }

/-- Bring peer number `k` into focus; the engine that was there takes its place. Where there is no such peer,
nothing. -/
def State.select (s : State) (k : Nat) : State :=
  match s.peers[k]? with
  | some e => { s with eng := e, peers := s.peers.set k s.eng }
  | none => s

/-- What a step does beside its event: the event leaves the agenda and the step is counted. -/
def State.advance (s : State) : State :=
  { s with agenda := s.agenda.tail, stepNo := s.stepNo + 1 }

/-- What becomes of an encoded thing that stands for no instruction: a refused transaction is answered
`NAK_ILLEGAL` and changes nothing else (30_encoding.md R94, R99, R106); a reserved phase code stops the
machine. -/
def State.reject (s : State) : Reject → Result
  | .reservedKind => .next (s.nak .nakIllegal)
  | .illegalCommand _ => .next (s.nak .nakIllegal)
  | .reservedPhase p => .fault (.reservedPhase p)

/-- The encoded thing the next step decodes: the host's transaction if that is the next move, the sequencer's
phase code if the engine moves, nothing if the next move is a reset or a change of focus. -/
def State.fetch (s : State) : Option Encoded :=
  match s.agenda with
  | [] => some (.phase s.eng.phase.code)
  | .host t :: _ => some (.transaction t)
  | .engine :: _ => some (.phase s.eng.phase.code)
  | .reset :: _ => none
  | .select _ :: _ => none

/-- What a step does when nothing is decoded. -/
def State.passEvent (s : State) : State :=
  match s.agenda with
  | .reset :: _ => s.advance.resetAll
  | .select k :: _ => s.advance.select k
  | _ => s.advance

end Sys2Proof.Machine
end

