-- ==== Sys2Proof/Machine/Commands.lean ====
section
/-! DEFINITION. The commands: KSINIT, GEN.32, GEN.64 (43_host_interface.md R194 to R197). -/

namespace Sys2Proof.Machine

/-- `KSINIT` (43_host_interface.md R194). -/
def execKsinit (s : State) : Result := .next s.commandKsinit

/-- `GEN.32` (43_host_interface.md R195). -/
def execGen32 (s : State) : Result := .next (s.commandGen .w32)

/-- `GEN.64` (43_host_interface.md R196). -/
def execGen64 (s : State) : Result := .next (s.commandGen .w64)

end Sys2Proof.Machine
end

