-- ==== Sys2Proof/Machine/HostPort.lean ====
section
/-! DEFINITION. The host's transactions: RD, WR, RDP (43_host_interface.md R192, R193, R198). -/

namespace Sys2Proof.Machine

/-- `RD reg` (43_host_interface.md R193): `STATUS` at any time, any other register when not busy and holding a
value. No read changes state. -/
def execRd (reg : Nat) (s : State) : Result :=
  if reg = 12 then .next (s.ackData s.status)
  else if s.eng.busy then .next (s.nak .nakBusy)
  else
    match s.eng.register reg with
    | some v => .next (s.ackData v)
    | none => .next (s.nak .nakAccess)

/-- `WR reg, value` (43_host_interface.md R192, R197), in the order of 30_encoding.md R99: busy, then no such
writable register or a value that does not fit, then for `CMD` the command or `NAK_ILLEGAL` (log entry 13). -/
def execWr (reg data : Nat) (s : State) : Result :=
  if s.eng.busy then .next (s.nak .nakBusy)
  else if 11 < reg ∨ 2 ^ registerWidth reg ≤ data then .next (s.nak .nakAccess)
  else if reg = 11 then
    if data = 0x00000001 then .next s.commandKsinit
    else if data = 0x00000002 then .next (s.commandGen .w32)
    else if data = 0x00000012 then .next (s.commandGen .w64)
    else .next (s.nak .nakIllegal)
  else .next (s.withEngine (s.eng.setRegister reg data)).ack

/-- A read-out that 20_memory.md R68 allows: in `DONE`, of width 1, 2, 4 or 8, aligned, inside `BLEN`. -/
def Engine.mayReadOut (e : Engine) (addr size : Nat) : Bool :=
  match e.phase, e.blen with
  | .done, some b =>
    (size == 1 || size == 2 || size == 4 || size == 8) && addr % size == 0 && (addr + size ≤ b.toNat : Bool)
  | _, _ => false

/-- `RDP.size addr` (43_host_interface.md R198). A byte that holds no value is never answered with one
(20_memory.md R69). -/
def execRdp (addr size : Nat) (s : State) : Result :=
  if s.eng.busy then .next (s.nak .nakBusy)
  else if s.eng.mayReadOut addr size then
    match s.eng.readBuffer .pbuf addr size with
    | some v => .next (s.ackData v)
    | none => .next (s.nak .nakAccess)
  else .next (s.nak .nakAccess)

end Sys2Proof.Machine
end

