-- ==== Sys2Proof/Machine/Keystream.lean ====
section
/-! DEFINITION. DERIVE, the keystream source's one operation (40_keystream_source.md R121). -/

namespace Sys2Proof.Machine

/-- `DERIVE dst, counter, length` (40_keystream_source.md R121): the destination's first `length` bytes and its
validity, or an error. No working register is touched. -/
def execDerive (dst : Buffer) (counter : BitVec Config.counterBits) (length : BitVec 35) (s : State) : Result :=
  s.deriveThen dst counter length (fun t => .next t)

end Sys2Proof.Machine
end

