-- ==== Sys2Proof/Machine/Loop.lean ====
section
/-! DEFINITION. The scan: LD, TST, PULL, RFL, RED, FIN (42_sampler_loop.md). -/

namespace Sys2Proof.Machine

/-- `LD` (42_sampler_loop.md R161): the end test, or the next raw value. -/
def execLd (s : State) : Result :=
  if s.idxValue = s.eng.count then .next (s.withEngine { s.eng with phase := .fin })
  else
    match s.eng.elem .pbuf s.idxValue.toNat with
    | some v => .next (s.withEngine { s.eng with u := some (BitVec.ofNat 64 v), phase := .tst })
    | none => .fault (.absentByte .pbuf (s.eng.elemAddr s.idxValue.toNat))

/-- `TST` (42_sampler_loop.md R162): the rejection test, strict and unsigned (R174). -/
def execTst (s : State) : Result :=
  .next (s.withEngine { s.eng with phase := if s.uValue.toNat < s.minValue.toNat then .pull else .red })

/-- `PULL` (42_sampler_loop.md R163): the next element of the extra block, the cursor moved by one, and the refill
at once when that was the last element. -/
def execPull (s : State) : Result :=
  match s.eng.elem .xblk s.xcurValue.toNat with
  | some v =>
    let c := s.xcurValue + 1
    .next (s.withEngine
      { s.eng with
        u := some (BitVec.ofNat 64 v), xcur := some c, phase := if c.toNat = s.eng.wt.epb then .refill else .tst })
  | none => .fault (.absentByte .xblk (s.eng.elemAddr s.xcurValue.toNat))

/-- `RFL` (42_sampler_loop.md R164): the extra block at the next counter, never past the top of the counter. -/
def execRefill (s : State) : Result :=
  if s.xctrValue.toNat = 2 ^ Config.counterBits - 1 then .next (s.raise .counterExhausted)
  else
    let x := s.xctrValue + 1
    (s.withEngine { s.eng with xctr := some x }).deriveThen .xblk x (BitVec.ofNat 35 Config.blockBytes) (fun t =>
      .next (t.withEngine { t.eng with xcur := some 0, phase := .tst }))

/-- The pattern RED stores: `(lo_u + (U mod RANGE)) mod 2^WBITS` (42_sampler_loop.md R165). -/
def State.reduced (s : State) : Nat :=
  (s.eng.loU + remainder s.uValue.toNat s.rangeValue.toNat) % 2 ^ s.eng.wt.bits

/-- `RED` (42_sampler_loop.md R165): the accepted value reduced into the range, written over element `IDX`. The
element must be one the buffer has (93 U14). -/
def execRed (s : State) : Result :=
  let a := s.eng.elemAddr s.idxValue.toNat
  match s.eng.pbuf, s.eng.elem .pbuf s.idxValue.toNat with
  | some m, some _ =>
    .next (s.withEngine
      { s.eng with
        pbuf := some (Memory.writeLE m a s.eng.wt.bytes s.reduced), idx := some (s.idxValue + 1), phase := .ld })
  | _, _ => .fault (.absentByte .pbuf a)

/-- `FIN` (42_sampler_loop.md R166): the extra block released, the result presented. -/
def execFin (s : State) : Result :=
  .next (s.withEngine { s.eng with xblk := none, phase := .done })

end Sys2Proof.Machine
end

