-- ==== Sys2Proof/Machine/Rest.lean ====
section
/-! DEFINITION. The resting phases IDLE and DONE, in which the sequencer has no step (10_state.md R26). -/

namespace Sys2Proof.Machine

/-- `IDLE` (10_state.md R26): the sequencer rests and nothing changes. -/
def execIdle (s : State) : Result := .next s

/-- `DONE` (10_state.md R26): the sequencer rests, the result held in `PBUF`. -/
def execDone (s : State) : Result := .next s

end Sys2Proof.Machine
end

