-- ==== Sys2Proof/Machine/Setup.lean ====
section
/-! DEFINITION. The set-up micro-operations CHK, DPRI, DEXT, THR (41_sampler_setup.md). -/

namespace Sys2Proof.Machine

/-- `lo < hi` at the call's width and `COUNT <= MAX_COUNT` (41_sampler_setup.md R141). -/
def Engine.argumentsValid (e : Engine) : Bool :=
  (e.loS < e.hiS : Bool) && (e.count.toNat ≤ Config.maxCount.toNat : Bool)

/-- `CHK` (41_sampler_setup.md R141): arguments, then the initialisation flag, then the empty call. -/
def execChk (s : State) : Result :=
  if !s.eng.argumentsValid then .next (s.raise .validation)
  else if !s.ksReady then .next (s.raise .initialization)
  else if s.eng.count = 0 then
    .next (s.withEngine { s.eng with blen := some 0, pbuf := some [], phase := .done })
  else .next (s.withEngine { s.eng with phase := .dpri })

/-- The primary buffer's length `COUNT * WB`, which never overflows 35 bits (41_sampler_setup.md R148). -/
def Engine.byteLength (e : Engine) : BitVec 35 := BitVec.ofNat 35 (e.count.toNat * e.wt.bytes)

/-- `DPRI` (41_sampler_setup.md R142): `BLEN`, then the primary buffer from counter 0. -/
def execDpri (s : State) : Result :=
  let n := s.eng.byteLength
  (s.withEngine { s.eng with blen := some n }).deriveThen .pbuf 0 n (fun t =>
    .next (t.withEngine { t.eng with phase := .dext }))

/-- `DEXT` (41_sampler_setup.md R143): `PBC`, the first extra counter one gap block further, the extra block, and
the cursor at its start. -/
def execDext (s : State) : Result :=
  let p : Nat := ceilDiv s.blenValue.toNat Config.blockBytes
  let pbc := BitVec.ofNat Config.counterBits p
  let xctr := BitVec.ofNat Config.counterBits (p + Config.gapBlocks)
  (s.withEngine { s.eng with pbc := some pbc, xctr := some xctr }).deriveThen .xblk xctr
    (BitVec.ofNat 35 Config.blockBytes) (fun t =>
    .next (t.withEngine { t.eng with xcur := some 0, phase := .thr }))

/-- `THR` (41_sampler_setup.md R144): `RANGE`, `MIN = 2^WBITS mod RANGE`, and the start of the scan. -/
def execThr (s : State) : Result :=
  let r := subMod s.eng.wt.bits s.eng.hiU s.eng.loU
  let m := remainder (2 ^ s.eng.wt.bits) r
  .next (s.withEngine
    { s.eng with range := some (BitVec.ofNat 64 r), min := some (BitVec.ofNat 64 m), idx := some 0, phase := .ld })

end Sys2Proof.Machine
end

