-- ==== Sys2Proof/Machine/Dispatch.lean ====
section
/-! DEFINITION. The dispatch: one arm per instruction. -/

namespace Sys2Proof.Machine

def exec (i : Instr) (s : State) : Host.Outcome State Fault Refusal :=
  match i with
  | .rd reg => Sys2Proof.Machine.execRd reg s
  | .wr reg data => Sys2Proof.Machine.execWr reg data s
  | .rdp addr size => Sys2Proof.Machine.execRdp addr size s
  | .ksinit => Sys2Proof.Machine.execKsinit s
  | .gen32 => Sys2Proof.Machine.execGen32 s
  | .gen64 => Sys2Proof.Machine.execGen64 s
  | .idle => Sys2Proof.Machine.execIdle s
  | .chk => Sys2Proof.Machine.execChk s
  | .dpri => Sys2Proof.Machine.execDpri s
  | .dext => Sys2Proof.Machine.execDext s
  | .thr => Sys2Proof.Machine.execThr s
  | .ld => Sys2Proof.Machine.execLd s
  | .tst => Sys2Proof.Machine.execTst s
  | .pull => Sys2Proof.Machine.execPull s
  | .refill => Sys2Proof.Machine.execRefill s
  | .red => Sys2Proof.Machine.execRed s
  | .fin => Sys2Proof.Machine.execFin s
  | .done => Sys2Proof.Machine.execDone s
  | .derive dst counter length => Sys2Proof.Machine.execDerive dst counter length s

end Sys2Proof.Machine
end

