-- ==== Sys2Proof/Machine/Step.lean ====
section
/-! DEFINITION. One step of the machine: the agenda's next move, or the engine's when none is listed. -/

namespace Sys2Proof.Machine

/-- One step. A host transaction or the sequencer's phase code is decoded and runs; a reset or a change of focus
happens by itself. The step counts itself and takes its move off the agenda first. -/
def step (s : State) : Host.Outcome State Fault Refusal :=
  match s.fetch with
  | some enc =>
    match decode enc with
    | .ok i => exec i s.advance
    | .error r => s.advance.reject r
  | none => .next s.passEvent

/-- The state whose next step decodes the opcode-table pattern: a transaction kind as a transaction of zeros, a
command word as a write of it to `CMD`, a phase code as the phase of the engine, which then moves next. The
program counter is the pair (PHASE, IDX) (10_state.md R39), so `IDX` is given a value, 0, where it holds none
and the phase is one that has an element. A keystream request is fetched by nobody: DPRI, DEXT and RFL issue it
(30_encoding.md R97); the engine is put into DPRI, which after reset issues exactly the request of zeros
(log entry 20). -/
def State.withFetchWord (s : State) (nbits w : Nat) : State :=
  match tableEncoded nbits w with
  | some (.transaction t) => { s with agenda := .host t :: s.agenda }
  | some (.command c) => { s with agenda := .host (writeTransaction 11 c.toNat) :: s.agenda }
  | some (.phase p) =>
    match Phase.ofCode p with
    | some ph =>
      { s with
        agenda := .engine :: s.agenda
        eng := { s.eng with
          phase := ph
          idx := if 5 ≤ p.toNat ∧ p.toNat ≤ 10 then some (s.eng.idx.getD 0) else s.eng.idx } }
    | none => s
  | some (.request _) => { s with agenda := .engine :: s.agenda, eng := { s.eng with phase := .dpri } }
  | none => s

end Sys2Proof.Machine
end

