-- ==== Sys2Proof/Safety.lean ====
section
/-! DEFINITION. What counts as a sound state and a sound run, in the terms the statements use: what the buffers
hold in each phase (42_sampler_loop.md R178), which phase follows which (R167), the closed form of a call (R169),
and which states belong to the same call (43_host_interface.md R200). -/

namespace Sys2Proof.Machine

/-! ### The keystream as elements -/

/-- `MemRead(KSTREAM, k, n)`: `n` stream bytes from byte index `k`, little-endian (20_memory.md R61, R66). -/
def streamLE (seed : Config.Seed) (k : Nat) : Nat → Nat
  | 0 => 0
  | n + 1 => (Config.stream seed Config.nonce k).toNat + 256 * streamLE seed (k + 1) n

/-- `p_i`, the raw primary element `i` (20_memory.md R66, 42_sampler_loop.md R169). -/
def Engine.rawElem (e : Engine) (i : Nat) : Nat := streamLE e.seed (i * e.wt.bytes) e.wt.bytes

/-- The primary buffer's length in bytes, `N * WB` (41_sampler_setup.md R142). -/
def Engine.byteCount (e : Engine) : Nat := e.count.toNat * e.wt.bytes

/-- `ceil(N * WB / 64)` (41_sampler_setup.md R143). -/
def Engine.blockCount (e : Engine) : Nat := ceilDiv e.byteCount Config.blockBytes

/-- `e_k`, element `k` of the extra stream, which starts one gap block after the primary region
(42_sampler_loop.md R169). -/
def Engine.extraElem (e : Engine) (k : Nat) : Nat :=
  streamLE e.seed ((e.blockCount + Config.gapBlocks) * Config.blockBytes + k * e.wt.bytes) e.wt.bytes

/-- `hi - lo`, the true size of the range (41_sampler_setup.md R145). -/
def Engine.span (e : Engine) : Nat := (e.hiS - e.loS).toNat

/-- `2^WBITS mod RANGE` (41_sampler_setup.md R146). -/
def Engine.threshold (e : Engine) : Nat := 2 ^ e.wt.bits % e.span

/-- `(lo_u + (v mod RANGE)) mod 2^WBITS`, the result made from the accepted value `v` (42_sampler_loop.md R169). -/
def Engine.resultOf (e : Engine) (v : Nat) : Nat := (e.loU + v % e.span) % 2 ^ e.wt.bits

/-- The pattern `v`, read as a signed value, lies in `[lo, hi)` (42_sampler_loop.md R170). -/
def Engine.inRange (e : Engine) (v : Nat) : Prop :=
  e.loS ≤ toS e.wt.bits v ∧ toS e.wt.bits v < e.hiS

/-! ### The invariant -/

/-- Canonical, and exactly the bytes `0 .. n-1` hold a value. -/
def Memory.Covers (m : Memory) (n : Nat) : Prop :=
  Memory.wf m ∧ ∀ a, (Memory.byteAt m a).isSome = true ↔ a < n

/-- A call that has been accepted and has computed nothing yet (10_state.md R47). -/
structure Engine.Fresh (e : Engine) : Prop where
  blen  : e.blen = none
  pbc   : e.pbc = none
  xctr  : e.xctr = none
  xcur  : e.xcur = none
  range : e.range = none
  min   : e.min = none
  idx   : e.idx = none
  u     : e.u = none
  pbuf  : e.pbuf = none
  xblk  : e.xblk = none

/-- What CHK has checked, but for the capacity `MAX_COUNT`: the range is not empty, the keystream is
initialised, the call is not empty (41_sampler_setup.md R141). -/
structure Engine.Checked (ready : Bool) (e : Engine) : Prop where
  ready : ready = true
  order : e.loS < e.hiS
  nonempty : 0 < e.count.toNat

/-- `PBUF` when elements `0 .. i-1` are final and the rest are raw (42_sampler_loop.md R178 d). -/
structure Engine.PrimaryAt (e : Engine) (i : Nat) : Prop where
  blen   : e.blen = some (BitVec.ofNat 35 e.byteCount)
  covers : ∃ m, e.pbuf = some m ∧ Memory.Covers m e.byteCount
  final  : ∀ j, j < i → j < e.count.toNat → ∃ v, e.elem .pbuf j = some v ∧ e.inRange v
  raw    : ∀ j, i ≤ j → j < e.count.toNat → e.elem .pbuf j = some (e.rawElem j)

/-- `XBLK` holds block `x` of the stream, `x` is in `XCTR`, and lies beyond the gap (10_state.md R42,
42_sampler_loop.md R178 c, f). -/
structure Engine.ExtraAt (e : Engine) (x : Nat) : Prop where
  pbc    : e.pbc = some (BitVec.ofNat Config.counterBits e.blockCount)
  xctr   : e.xctr = some (BitVec.ofNat Config.counterBits x)
  fits   : x < 2 ^ Config.counterBits
  beyond : e.blockCount + Config.gapBlocks ≤ x
  covers : ∃ m, e.xblk = some m ∧ Memory.Covers m Config.blockBytes
  holds  : ∀ b, b < Config.blockBytes →
    e.byteOf .xblk b = some (Config.stream e.seed Config.nonce (x * Config.blockBytes + b))

/-- The scan at element `i`, extra block `x`, cursor `c` (42_sampler_loop.md R178). -/
structure Engine.ScanAt (ready : Bool) (e : Engine) (i x c : Nat) : Prop where
  checked : e.Checked ready
  primary : e.PrimaryAt i
  extra   : e.ExtraAt x
  range   : e.range = some (BitVec.ofNat 64 e.span)
  min     : e.min = some (BitVec.ofNat 64 e.threshold)
  idx     : e.idx = some (BitVec.ofNat 32 i)
  xcur    : e.xcur = some (BitVec.ofNat 5 c)
  inside  : i ≤ e.count.toNat

/-- The value under test, while element `i` is being processed. -/
structure Engine.TestAt (e : Engine) (i u : Nat) : Prop where
  within : i < e.count.toNat
  held   : e.u = some (BitVec.ofNat 64 u)
  small  : u < 2 ^ e.wt.bits

/-- What holds of an engine in each phase. -/
def Engine.PhaseInv (ready : Bool) (e : Engine) : Prop :=
  match e.phase with
  | .idle => e.pbuf = none ∧ e.xblk = none
  | .chk => e.Fresh
  | .dpri => e.Fresh ∧ e.Checked ready
  | .dext => e.Checked ready ∧ e.PrimaryAt 0 ∧ e.xctr = none ∧ e.xblk = none
  | .thr => e.Checked ready ∧ e.PrimaryAt 0 ∧ e.ExtraAt (e.blockCount + Config.gapBlocks) ∧ e.xcur = some 0
  | .ld => ∃ i x c, e.ScanAt ready i x c ∧ c < e.wt.epb
  | .tst => ∃ i x c u, e.ScanAt ready i x c ∧ c < e.wt.epb ∧ e.TestAt i u
  | .pull => ∃ i x c u, e.ScanAt ready i x c ∧ c < e.wt.epb ∧ e.TestAt i u ∧ u < e.threshold
  | .refill => ∃ i x c u, e.ScanAt ready i x c ∧ c = e.wt.epb ∧ e.TestAt i u
  | .red => ∃ i x c u, e.ScanAt ready i x c ∧ c < e.wt.epb ∧ e.TestAt i u ∧ e.threshold ≤ u
  | .fin => ∃ x c, e.ScanAt ready e.count.toNat x c ∧ c < e.wt.epb
  | .done => e.xblk = none ∧ ∃ m b, e.pbuf = some m ∧ e.blen = some b ∧ Memory.Covers m b.toNat

/-- The invariant of one engine: an error code stands only in `IDLE` (60_exceptions.md R228, R230), and the phase's
own. -/
structure Engine.Inv (ready : Bool) (e : Engine) : Prop where
  err   : e.phase ≠ .idle → e.err = .none
  phase : e.PhaseInv ready

/-- The invariant of the machine: every engine meets its own. -/
def State.Inv (s : State) : Prop :=
  s.eng.Inv s.ksReady ∧ ∀ e ∈ s.peers, e.Inv s.ksReady

/-! ### The sequencer's transition table -/

/-- Phase `q` may follow the busy phase `p` (42_sampler_loop.md R167). -/
def follows (p q : Phase) : Bool :=
  match p with
  | .idle => false
  | .chk => q == .idle || q == .done || q == .dpri
  | .dpri => q == .dext
  | .dext => q == .thr
  | .thr => q == .ld
  | .ld => q == .fin || q == .tst
  | .tst => q == .pull || q == .red
  | .pull => q == .refill || q == .tst
  | .refill => q == .idle || q == .tst
  | .red => q == .ld
  | .fin => q == .done
  | .done => false

/-! ### The closed form of a call -/

/-- `Scanned e i k vs`: elements `0 .. i-1` take the values `vs` and use the first `k` elements of the extra
stream, each rejected raw value being replaced by the next extra element not below the threshold
(42_sampler_loop.md R169: `k` is `K_i`, `vs` is `v_0 .. v_{i-1}`). -/
inductive Engine.Scanned (e : Engine) : Nat → Nat → List Nat → Prop
  | start : Engine.Scanned e 0 0 []
  | accepted {i k : Nat} {vs : List Nat} (before : Engine.Scanned e i k vs) (ok : e.threshold ≤ e.rawElem i) :
      Engine.Scanned e (i + 1) k (vs ++ [e.rawElem i])
  | replaced {i k : Nat} {vs : List Nat} (n : Nat) (before : Engine.Scanned e i k vs)
      (rejected : e.rawElem i < e.threshold) (skipped : ∀ m, m < n → e.extraElem (k + m) < e.threshold)
      (ok : e.threshold ≤ e.extraElem (k + n)) :
      Engine.Scanned e (i + 1) (k + n + 1) (vs ++ [e.extraElem (k + n)])

/-- The elements processed so far hold the results of `vs`, and `k` elements of the extra stream are used
(42_sampler_loop.md R169, R178 a). -/
structure Engine.Holds (e : Engine) (i x c k : Nat) (vs : List Nat) : Prop where
  idx    : e.idx = some (BitVec.ofNat 32 i)
  xctr   : e.xctr = some (BitVec.ofNat Config.counterBits x)
  xcur   : e.xcur = some (BitVec.ofNat 5 c)
  fits   : x < 2 ^ Config.counterBits
  cursor : c ≤ e.wt.epb
  pulls  : (e.blockCount + Config.gapBlocks) * e.wt.epb + k = x * e.wt.epb + c
  inside : i ≤ e.count.toNat
  length : vs.length = i
  values : ∀ j v, vs[j]? = some v → e.elem .pbuf j = some (e.resultOf v)

/-- The value under test after `n` replacements of element `i`, `k` extra elements having been used before it
(42_sampler_loop.md R178 e). -/
def Engine.Testing (e : Engine) (i k n : Nat) : Prop :=
  match n with
  | 0 => e.u = some (BitVec.ofNat 64 (e.rawElem i))
  | n + 1 => e.rawElem i < e.threshold ∧ (∀ m, m < n → e.extraElem (k + m) < e.threshold) ∧
      e.u = some (BitVec.ofNat 64 (e.extraElem (k + n)))

/-- Between two elements `U` holds the value accepted last (42_sampler_loop.md R169). -/
def Engine.Last (e : Engine) (vs : List Nat) : Prop := ∀ v, vs.getLast? = some v → e.u = some (BitVec.ofNat 64 v)

/-- The engine is where the closed form says: a scanning engine has come so far with `Scanned`. -/
def Engine.Traced (e : Engine) : Prop :=
  match e.phase with
  | .ld => ∃ i x c k vs, e.Holds i x c k vs ∧ e.Scanned i k vs ∧ e.Last vs
  | .tst => ∃ i x c k vs n, e.Holds i x c (k + n) vs ∧ e.Scanned i k vs ∧ e.Testing i k n
  | .pull => ∃ i x c k vs n, e.Holds i x c (k + n) vs ∧ e.Scanned i k vs ∧ e.Testing i k n
  | .refill => ∃ i x c k vs n, e.Holds i x c (k + n) vs ∧ e.Scanned i k vs ∧ e.Testing i k n
  | .red => ∃ i x c k vs n, e.Holds i x c (k + n) vs ∧ e.Scanned i k vs ∧ e.Testing i k n
  | .fin => ∃ x c k vs, e.Holds e.count.toNat x c k vs ∧ e.Scanned e.count.toNat k vs ∧ e.Last vs
  | _ => True

/-! ### Two engines in the same call -/

/-- Two engines that a call cannot tell apart: equal but for what the call does not read, the upper halves of
`LO` and `HI` in a 32-bit call (43_host_interface.md R200, 10_state.md R23). -/
structure Engine.SameCall (e f : Engine) : Prop where
  seed  : e.seed = f.seed
  count : e.count = f.count
  loU   : e.loU = f.loU
  hiU   : e.hiU = f.hiU
  phase : e.phase = f.phase
  err   : e.err = f.err
  wt    : e.wt = f.wt
  blen  : e.blen = f.blen
  pbc   : e.pbc = f.pbc
  xctr  : e.xctr = f.xctr
  xcur  : e.xcur = f.xcur
  range : e.range = f.range
  min   : e.min = f.min
  idx   : e.idx = f.idx
  u     : e.u = f.u
  pbuf  : e.pbuf = f.pbuf
  xblk  : e.xblk = f.xblk

/-- The machine after `n` steps, if none of them stops (70_reset_and_hazards.md R262). -/
def State.run (s : State) : Nat → Result
  | 0 => .next s
  | n + 1 =>
    match step s with
    | .next t => State.run t n
    | .fault f => .fault f
    | .refused r => .refused r

/-- The next move is the focused engine's own. -/
def State.engineMoves (s : State) : Prop := s.agenda = [] ∨ ∃ rest, s.agenda = .engine :: rest

end Sys2Proof.Machine
end

