-- ==== Sys2Proof/Certificates/Slice0/Obligations.lean ====
section
/-! DEFINITION. The statements for the provers, one `def Obligations.<Name> : Prop` each. A conclusion of the form
`exec i s = .next { s with … }` states the result and the frame at once: what the record does not name is
unchanged. -/

open Sys2Proof Sys2Proof.Machine

/-! ### Reset -/

/-- 10_state.md R46, the reset table, with what it says of the host's reads of the working registers and of a GEN
issued with nothing written, whose CHK refuses it. -/
def Obligations.ResetGivesTheStatedValues : Prop :=
  State.reset.eng.phase = .idle ∧ stateCode State.reset.eng.phase = 0 ∧ State.reset.eng.err = .none ∧ State.reset.eng.wt.tag = 0 ∧
  State.reset.ksReady = false ∧ (∀ i (h : i < 8), State.reset.eng.seed[i] = 0) ∧ State.reset.eng.count = 0 ∧
  State.reset.eng.lo = 0 ∧ State.reset.eng.hi = 0 ∧ State.reset.eng.blen = none ∧ State.reset.eng.pbc = none ∧
  State.reset.eng.xctr = none ∧ State.reset.eng.xcur = none ∧ State.reset.eng.range = none ∧
  State.reset.eng.min = none ∧ State.reset.eng.idx = none ∧ State.reset.eng.u = none ∧
  State.reset.eng.pbuf = none ∧ State.reset.eng.xblk = none ∧
  (∀ n, 13 ≤ n → n ≤ 20 →
    exec (.rd n) State.reset = .next { State.reset with replies := [⟨.nakAccess, none⟩] }) ∧
  (∀ w : Width, ∃ t, exec .chk (State.reset.withEngine (State.reset.eng.accept w)) = .next t ∧
    t.eng.err = .validation ∧ t.eng.phase = .idle)

/-- 70_reset_and_hazards.md R250, R252: a reset event, in any state, puts every engine and the shared flag at
their reset values, and ends a call with no error code. The agenda, the replies and the step count are the
model's (log entries 1, 3, 4, 29). -/
def Obligations.ResetEventResetsEveryEngine : Prop :=
  ∀ (s : State) (rest : List Event), s.agenda = .reset :: rest →
    step s = .next
      { s with
        eng := Engine.reset, peers := s.peers.map (fun _ => Engine.reset), ksReady := false,
        agenda := rest, stepNo := s.stepNo + 1 }

/-! ### Fetching and decoding -/

/-- A step runs the decoded instruction: the host's transaction when that is the agenda's next move, the phase
code when the engine moves (10_state.md R26, 30_encoding.md R90). The move leaves the agenda and the step is
counted (log entries 1, 4). -/
def Obligations.StepRunsTheDecodedInstruction : Prop :=
  (∀ (s : State) (t : Transaction) (rest : List Event) (i : Instr),
    s.agenda = .host t :: rest → decode (.transaction t) = .ok i →
    step s = exec i { s with agenda := rest, stepNo := s.stepNo + 1 }) ∧
  (∀ (s : State) (rest : List Event) (i : Instr),
    s.agenda = .engine :: rest → decode (.phase s.eng.phase.code) = .ok i →
    step s = exec i { s with agenda := rest, stepNo := s.stepNo + 1 }) ∧
  (∀ (s : State) (i : Instr),
    s.agenda = [] → decode (.phase s.eng.phase.code) = .ok i →
    step s = exec i { s with agenda := [], stepNo := s.stepNo + 1 })

/-- 30_encoding.md R106: transaction kind 3 is answered `NAK_ILLEGAL`, even while busy, and changes nothing. -/
def Obligations.ReservedKindIsAnsweredNakIllegal : Prop :=
  ∀ (s : State) (t : Transaction) (rest : List Event), s.agenda = .host t :: rest → t.kind = 3#2 →
    step s = .next
      { s with agenda := rest, stepNo := s.stepNo + 1, replies := ⟨.nakIllegal, none⟩ :: s.replies }

/-- A few words of 30_encoding.md R92, R95, and five records of the programs of 95 (R106), the first line of P1 among
them. -/
def Obligations.WordsDecodeAsTheSpecSays : Prop :=
  decode (.command 0x00000001#32) = .ok .ksinit ∧ decode (.command 0x00000012#32) = .ok .gen64 ∧
  decode (.phase 0x7#4) = .ok .pull ∧ decode (.phase 0x8#4) = .ok .refill ∧
  decode (.transaction ⟨1#2, 11, 0, 0, 0x00000001⟩) = .ok .ksinit ∧
  decode (.transaction ⟨1#2, 11, 0, 0, 0x00000002⟩) = .ok .gen32 ∧
  decode (.transaction ⟨1#2, 8, 0, 0, 5⟩) = .ok (.wr 8 5) ∧
  decode (.transaction ⟨0#2, 12, 0, 0, 0⟩) = .ok (.rd 12) ∧
  decode (.transaction ⟨2#2, 0, 16, 4, 0⟩) = .ok (.rdp 16 4)

/-- The encoder and the decoder agree in both directions: every well-formed instruction decodes from its encoding;
what a transaction decodes to is well-formed and decodes again from its own encoding; and two well-formed
instructions with one encoding are the same. -/
def Obligations.DecodeInvertsEncode : Prop :=
  (∀ (seed : Config.Seed) (i : Instr), i.wf = true → decode (encode seed i) = .ok i) ∧
  (∀ (seed : Config.Seed) (t : Transaction) (i : Instr), decode (.transaction t) = .ok i →
    i.wf = true ∧ decode (encode seed i) = .ok i) ∧
  (∀ (seed : Config.Seed) (i j : Instr), i.wf = true → j.wf = true → encode seed i = encode seed j → i = j)

/-- 30_encoding.md R94, R96, R106: every other word of 32 bits is no command, phase codes 12 to 15 are no phase,
kind 3 is no transaction; and these are the only ones refused. -/
def Obligations.OnlyReservedEncodingsAreRefused : Prop :=
  (∀ w : BitVec 32, (∃ i, decode (.command w) = .ok i) ↔ w.toNat = 0x1 ∨ w.toNat = 0x2 ∨ w.toNat = 0x12) ∧
  (∀ p : BitVec 4, (∃ i, decode (.phase p) = .ok i) ↔ p.toNat < 12) ∧
  (∀ t : Transaction, (∃ i, decode (.transaction t) = .ok i) ↔ t.kind.toNat < 3)

/-! ### The host port -/

/-- 10_state.md R25, 43_host_interface.md R193: a read of `STATUS` is answered `ACK` at any time, with the fields
in their places; `PHASE` reads as some busy code while the engine is busy; a write of it is refused. -/
def Obligations.ReadStatusGivesTheFields : Prop :=
  ∀ s : State, ∃ v : Nat,
    exec (.rd 12) s = .next { s with replies := ⟨.ack, some v⟩ :: s.replies } ∧
    v < 2 ^ 13 ∧ v % 2 ^ 2 = (if s.eng.phase = .idle then 0 else if s.eng.phase = .done then 2 else 1) ∧ v / 2 ^ 2 % 2 = s.ksReady.toNat ∧ v / 2 ^ 3 % 2 = 0 ∧
    v / 2 ^ 8 % 2 ^ 4 = errorCode s.eng.err ∧ v / 2 ^ 12 = s.eng.wt.tag ∧
    (s.eng.busy = false → v / 2 ^ 4 % 2 ^ 4 = s.eng.phase.code.toNat) ∧
    (s.eng.busy = true → 1 ≤ v / 2 ^ 4 % 2 ^ 4 ∧ v / 2 ^ 4 % 2 ^ 4 ≤ 10) ∧
    ∀ w, exec (.wr 12 w) s = .next
      { s with replies := ⟨if s.eng.busy then .nakBusy else .nakAccess, none⟩ :: s.replies }

/-- 43_host_interface.md R193, 10_state.md R44: when the engine is not busy a read of a register that holds a value
is answered `ACK` with the whole value; no state changes. -/
def Obligations.ReadGivesTheRegister : Prop :=
  ∀ s : State, s.eng.busy = false →
    (∀ i (h : i < 8),
      exec (.rd i) s = .next { s with replies := ⟨.ack, some (s.eng.seed[i]).toNat⟩ :: s.replies }) ∧
    exec (.rd 8) s = .next { s with replies := ⟨.ack, some s.eng.count.toNat⟩ :: s.replies } ∧
    exec (.rd 9) s = .next { s with replies := ⟨.ack, some s.eng.lo.toNat⟩ :: s.replies } ∧
    exec (.rd 10) s = .next { s with replies := ⟨.ack, some s.eng.hi.toNat⟩ :: s.replies } ∧
    (∀ v, s.eng.blen = some v → exec (.rd 13) s = .next { s with replies := ⟨.ack, some v.toNat⟩ :: s.replies }) ∧
    (∀ v, s.eng.pbc = some v → exec (.rd 14) s = .next { s with replies := ⟨.ack, some v.toNat⟩ :: s.replies }) ∧
    (∀ v, s.eng.xctr = some v → exec (.rd 15) s = .next { s with replies := ⟨.ack, some v.toNat⟩ :: s.replies }) ∧
    (∀ v, s.eng.xcur = some v → exec (.rd 16) s = .next { s with replies := ⟨.ack, some v.toNat⟩ :: s.replies }) ∧
    (∀ v, s.eng.range = some v → exec (.rd 17) s = .next { s with replies := ⟨.ack, some v.toNat⟩ :: s.replies }) ∧
    (∀ v, s.eng.min = some v → exec (.rd 18) s = .next { s with replies := ⟨.ack, some v.toNat⟩ :: s.replies }) ∧
    (∀ v, s.eng.idx = some v → exec (.rd 19) s = .next { s with replies := ⟨.ack, some v.toNat⟩ :: s.replies }) ∧
    (∀ v, s.eng.u = some v → exec (.rd 20) s = .next { s with replies := ⟨.ack, some v.toNat⟩ :: s.replies })

/-- 43_host_interface.md R193, 10_state.md R24, R44, R45: the reads that are refused: any but of `STATUS` while
busy; `CMD`, a number that is no register, and a working register that holds no value. Nothing else changes. -/
def Obligations.ReadIsRefused : Prop :=
  ∀ (s : State) (reg : Nat),
    (s.eng.busy = true → reg ≠ 12 → exec (.rd reg) s = .next { s with replies := ⟨.nakBusy, none⟩ :: s.replies }) ∧
    (s.eng.busy = false →
      (reg = 11 ∨ 20 < reg ∨ (reg = 13 ∧ s.eng.blen = none) ∨ (reg = 14 ∧ s.eng.pbc = none) ∨
        (reg = 15 ∧ s.eng.xctr = none) ∨ (reg = 16 ∧ s.eng.xcur = none) ∨ (reg = 17 ∧ s.eng.range = none) ∨
        (reg = 18 ∧ s.eng.min = none) ∨ (reg = 19 ∧ s.eng.idx = none) ∨ (reg = 20 ∧ s.eng.u = none)) →
      exec (.rd reg) s = .next { s with replies := ⟨.nakAccess, none⟩ :: s.replies })

/-- 43_host_interface.md R192: a write that fits, to an argument register, when the engine is not busy: that
register takes the value, `ACK`, nothing else changes. -/
def Obligations.WriteSetsTheRegister : Prop :=
  ∀ (s : State) (v : Nat), s.eng.busy = false →
    (∀ i (h : i < 8), v < 2 ^ 32 → exec (.wr i v) s = .next
      { s with
        eng := { s.eng with seed := s.eng.seed.set i (BitVec.ofNat 32 v) },
        replies := ⟨.ack, none⟩ :: s.replies }) ∧
    (v < 2 ^ 32 → exec (.wr 8 v) s = .next
      { s with eng := { s.eng with count := BitVec.ofNat 32 v }, replies := ⟨.ack, none⟩ :: s.replies }) ∧
    (v < 2 ^ 64 → exec (.wr 9 v) s = .next
      { s with eng := { s.eng with lo := BitVec.ofNat 64 v }, replies := ⟨.ack, none⟩ :: s.replies }) ∧
    (v < 2 ^ 64 → exec (.wr 10 v) s = .next
      { s with eng := { s.eng with hi := BitVec.ofNat 64 v }, replies := ⟨.ack, none⟩ :: s.replies })

/-- 43_host_interface.md R192 and 30_encoding.md R94, in the order of 30_encoding.md R99: busy; then a register
that is not writable or a value that does not fit; then, for `CMD`, a word that is no command. That a value too
wide for `CMD` is answered `NAK_ACCESS` is read from R99 and R44 (log entry 13). Nothing else changes. -/
def Obligations.WriteIsRefused : Prop :=
  ∀ (s : State) (reg v : Nat),
    (s.eng.busy = true → exec (.wr reg v) s = .next { s with replies := ⟨.nakBusy, none⟩ :: s.replies }) ∧
    (s.eng.busy = false → (11 < reg ∨ (reg < 9 ∧ 2 ^ 32 ≤ v) ∨ ((reg = 9 ∨ reg = 10) ∧ 2 ^ 64 ≤ v) ∨
        (reg = 11 ∧ 2 ^ 32 ≤ v)) →
      exec (.wr reg v) s = .next { s with replies := ⟨.nakAccess, none⟩ :: s.replies }) ∧
    (s.eng.busy = false → reg = 11 → v < 2 ^ 32 → v ≠ 0x1 → v ≠ 0x2 → v ≠ 0x12 →
      exec (.wr reg v) s = .next { s with replies := ⟨.nakIllegal, none⟩ :: s.replies })

/-- 43_host_interface.md R197: a write of a command word to `CMD` is the command. -/
def Obligations.WriteOfACommandWordIsTheCommand : Prop :=
  ∀ s : State, exec (.wr 11 0x1) s = exec .ksinit s ∧ exec (.wr 11 0x2) s = exec .gen32 s ∧
    exec (.wr 11 0x12) s = exec .gen64 s

/-- 43_host_interface.md R198, 20_memory.md R66, R68: in `DONE`, a read-out of width 1, 2, 4 or 8, aligned and inside
`BLEN`, of bytes that hold values, is answered `ACK` with the bytes composed little-endian; no state changes. -/
def Obligations.ReadOutGivesTheBytes : Prop :=
  ∀ (s : State) (a n : Nat) (b : BitVec 35) (f : Nat → Byte),
    s.eng.phase = .done → s.eng.blen = some b → n ∈ [1, 2, 4, 8] → a % n = 0 → a + n ≤ b.toNat →
    (∀ j, j < n → s.eng.byteOf .pbuf (a + j) = some (f j)) →
    exec (.rdp a n) s = .next
      { s with replies := ⟨.ack, some (∑ j ∈ Finset.range n, (f j).toNat * 256 ^ j)⟩ :: s.replies }

/-- 43_host_interface.md R198, 20_memory.md R69: the read-outs that are refused; nothing else changes. -/
def Obligations.ReadOutIsRefused : Prop :=
  ∀ (s : State) (a n : Nat),
    (s.eng.busy = true → exec (.rdp a n) s = .next { s with replies := ⟨.nakBusy, none⟩ :: s.replies }) ∧
    (s.eng.busy = false →
      (s.eng.phase ≠ .done ∨ n ∉ [1, 2, 4, 8] ∨ a % n ≠ 0 ∨ ∃ b, s.eng.blen = some b ∧ b.toNat < a + n) →
      exec (.rdp a n) s = .next { s with replies := ⟨.nakAccess, none⟩ :: s.replies })

/-- 43_host_interface.md R194: an accepted KSINIT sets the flag if the draw is true, keeps it if it was set, answers
`ACK` either way and changes nothing else. The draw is free: nothing is known of `Config.initOk`. -/
def Obligations.KsinitSetsTheFlagAsDrawn : Prop :=
  ∀ s : State, s.eng.busy = false →
    exec .ksinit s = .next
      { s with ksReady := s.ksReady || Config.initOk s.stepNo, replies := ⟨.ack, none⟩ :: s.replies }

/-- 43_host_interface.md R195, R196, 10_state.md R47: an accepted GEN starts a call afresh at its width and keeps the
arguments and the flag. -/
def Obligations.GenStartsAFreshCall : Prop :=
  ∀ s : State, s.eng.busy = false →
    exec .gen32 s = .next
      { s with
        eng := { s.eng with
          err := .none, wt := .w32, phase := .chk, pbuf := none, xblk := none, blen := none, pbc := none,
          xctr := none, xcur := none, range := none, min := none, idx := none, u := none },
        replies := ⟨.ack, none⟩ :: s.replies } ∧
    exec .gen64 s = .next
      { s with
        eng := { s.eng with
          err := .none, wt := .w64, phase := .chk, pbuf := none, xblk := none, blen := none, pbc := none,
          xctr := none, xcur := none, range := none, min := none, idx := none, u := none },
        replies := ⟨.ack, none⟩ :: s.replies }

/-- 43_host_interface.md R197, 10_state.md R45: a command while busy is answered `NAK_BUSY` and not remembered. -/
def Obligations.CommandsAreRefusedWhileBusy : Prop :=
  ∀ (s : State) (i : Instr), s.eng.busy = true → i = .ksinit ∨ i = .gen32 ∨ i = .gen64 →
    exec i s = .next { s with replies := ⟨.nakBusy, none⟩ :: s.replies }

/-! ### The resting phases -/

/-- 10_state.md R26: in `IDLE` and `DONE` the sequencer has no step: a step that is the engine's changes nothing but
the model's own agenda and step count. -/
def Obligations.RestingPhasesChangeNothing : Prop :=
  (∀ s : State, exec .idle s = .next s ∧ exec .done s = .next s) ∧
  (∀ s : State, s.engineMoves → s.eng.phase = .idle ∨ s.eng.phase = .done →
    step s = .next { s with agenda := s.agenda.tail, stepNo := s.stepNo + 1 })

/-! ### Set-up -/

/-- 41_sampler_setup.md R141, 60_exceptions.md R227, R228: the tests of CHK in their order: the arguments (error entry
with ValidationError), the flag (error entry with InitializationError), the empty call (a zero-length result in `DONE`);
any other call goes on to `DPRI`. Error entry makes both buffers invalid and rests in `IDLE`. Nothing else changes. -/
def Obligations.ChkTestsInOrder : Prop :=
  ∀ s : State,
    exec .chk s = .next
      (if ¬ s.eng.loS < s.eng.hiS ∨ Config.maxCount.toNat < s.eng.count.toNat then
        { s with eng := { s.eng with err := .validation, pbuf := none, xblk := none, phase := .idle } }
       else if s.ksReady = false then
        { s with eng := { s.eng with err := .initialization, pbuf := none, xblk := none, phase := .idle } }
       else if s.eng.count = 0 then { s with eng := { s.eng with blen := some 0, pbuf := some [], phase := .done } }
       else { s with eng := { s.eng with phase := .dpri } })

/-- 41_sampler_setup.md R142: DPRI writes `BLEN = COUNT * WB`, exactly, and the first `BLEN` bytes of the stream into
`PBUF`, whose element `i` is then the raw element `p_i`; bytes beyond read as before (in a call there are none: `PBUF`
was invalid). Nothing else changes. -/
def Obligations.DpriDerivesThePrimaryBuffer : Prop :=
  ∀ s : State, s.ksReady = true →
    ∃ (n : BitVec 35) (m : Memory),
      exec .dpri s = .next { s with eng := { s.eng with blen := some n, pbuf := some m, phase := .dext } } ∧
      n.toNat = s.eng.count.toNat * s.eng.wt.bytes ∧
      (∀ j, j < n.toNat → Memory.byteAt m j = some (Config.stream s.eng.seed Config.nonce j)) ∧
      (∀ j, n.toNat ≤ j → Memory.byteAt m j = s.eng.byteOf .pbuf j) ∧
      (∀ i, i < s.eng.count.toNat →
        Memory.readLE m (i * s.eng.wt.bytes) s.eng.wt.bytes = some (s.eng.rawElem i))

/-- 41_sampler_setup.md R143: DEXT writes `PBC = ceil(BLEN / 64)`, `XCTR = PBC + 1`, the block of that counter into
`XBLK`, and `XCUR = 0`. Nothing else changes. -/
def Obligations.DextPlacesTheExtraBlock : Prop :=
  ∀ (s : State) (n : BitVec 35), s.ksReady = true → s.eng.blen = some n →
    ∃ (p x : BitVec 64) (m : Memory),
      exec .dext s = .next
        { s with
          eng := { s.eng with pbc := some p, xctr := some x, xblk := some m, xcur := some 0, phase := .thr } } ∧
      p.toNat = (n.toNat + 63) / 64 ∧ x.toNat = p.toNat + 1 ∧
      (∀ j, j < 64 → Memory.byteAt m j = some (Config.stream s.eng.seed Config.nonce (x.toNat * 64 + j))) ∧
      (∀ j, 64 ≤ j → Memory.byteAt m j = s.eng.byteOf .xblk j)

/-- 41_sampler_setup.md R144 to R146: on a range that is not empty THR writes the true size of the range, the
remainder of `2^WBITS` by it, and `IDX = 0`. Nothing else changes. -/
def Obligations.ThrComputesRangeAndThreshold : Prop :=
  ∀ s : State, s.eng.loS < s.eng.hiS →
    ∃ r m : BitVec 64,
      exec .thr s = .next
        { s with eng := { s.eng with range := some r, min := some m, idx := some 0, phase := .ld } } ∧
      (r.toNat : Int) = s.eng.hiS - s.eng.loS ∧ m.toNat = 2 ^ s.eng.wt.bits % r.toNat

/-- 41_sampler_setup.md R147: the bounds on the threshold that THR writes; when it is 0, which is when the range is a
power of two, TST accepts every value; the count of accepted raw values is a multiple of the range. -/
def Obligations.ThresholdIsBounded : Prop :=
  ∀ s t : State, s.eng.loS < s.eng.hiS → exec .thr s = .next t →
    ∃ r m : BitVec 64, t.eng.range = some r ∧ t.eng.min = some m ∧
      m.toNat < r.toNat ∧ m.toNat ≤ 2 ^ s.eng.wt.bits - r.toNat ∧ 2 * m.toNat < 2 ^ s.eng.wt.bits ∧
      (m.toNat = 0 ↔ r.toNat ∣ 2 ^ s.eng.wt.bits) ∧ (m.toNat = 0 ↔ ∃ j, r.toNat = 2 ^ j) ∧
      (m.toNat = 0 → ∀ q : State, q.eng.min = some m →
        exec .tst q = .next { q with eng := { q.eng with phase := .red } }) ∧
      2 ^ s.eng.wt.bits - m.toNat = r.toNat * (2 ^ s.eng.wt.bits / r.toNat)

/-- 42_sampler_loop.md R177: with the range and threshold that THR writes, every residue is taken by the same number
of accepted raw values, `2^WBITS div RANGE`. -/
def Obligations.EveryResidueIsTakenEquallyOften : Prop :=
  ∀ s t : State, s.eng.loS < s.eng.hiS → exec .thr s = .next t →
    ∃ r m : BitVec 64, t.eng.range = some r ∧ t.eng.min = some m ∧
      ∀ q, q < r.toNat →
        ((Finset.Ico m.toNat (2 ^ s.eng.wt.bits)).filter (fun u => u % r.toNat = q)).card =
          2 ^ s.eng.wt.bits / r.toNat

/-! ### The scan -/

/-- 42_sampler_loop.md R161: LD goes to `FIN` when `IDX = COUNT`, and otherwise loads element `IDX` of `PBUF`, zero
extended, into `U`. Nothing else changes. -/
def Obligations.LdLoadsTheElement : Prop :=
  ∀ (s : State) (i : BitVec 32), s.eng.idx = some i →
    (i = s.eng.count → exec .ld s = .next { s with eng := { s.eng with phase := .fin } }) ∧
    (∀ v, i ≠ s.eng.count →
      Engine.readBuffer s.eng .pbuf (i.toNat * s.eng.wt.bytes) s.eng.wt.bytes = some v →
      ∃ u : BitVec 64, u.toNat = v ∧
        exec .ld s = .next { s with eng := { s.eng with u := some u, phase := .tst } })

/-- 42_sampler_loop.md R162, R174: TST compares `U` and `MIN` as unsigned integers, strictly. Only `PHASE`
changes. -/
def Obligations.TstRejectsBelowTheThreshold : Prop :=
  ∀ (s : State) (u m : BitVec 64), s.eng.u = some u → s.eng.min = some m →
    exec .tst s = .next
      { s with eng := { s.eng with phase := if u.toNat < m.toNat then .pull else .red } }

/-- 42_sampler_loop.md R163: PULL takes element `XCUR` of `XBLK`, moves the cursor by one, and goes to the refill
exactly when that was the last element. Nothing else changes. -/
def Obligations.PullTakesTheNextExtraElement : Prop :=
  ∀ (s : State) (c : BitVec 5) (v : Nat), s.eng.xcur = some c → c.toNat < s.eng.wt.epb →
    Engine.readBuffer s.eng .xblk (c.toNat * s.eng.wt.bytes) s.eng.wt.bytes = some v →
    ∃ (u : BitVec 64) (d : BitVec 5), u.toNat = v ∧ d.toNat = c.toNat + 1 ∧
      exec .pull s = .next
        { s with
          eng := { s.eng with
            u := some u, xcur := some d, phase := if d.toNat = s.eng.wt.epb then .refill else .tst } }

/-- 42_sampler_loop.md R164, 60_exceptions.md R223, R228: at the top of the counter RFL raises CounterExhausted (both
buffers invalid, `IDLE`, the working registers as they were) and never wraps; otherwise it derives the block of the next
counter into `XBLK`, all 64 bytes, and sets the cursor to 0; `U` is not touched. Nothing else changes. -/
def Obligations.RflRefillsOrRaises : Prop :=
  ∀ (s : State) (x : BitVec 64), s.eng.xctr = some x →
    (x.toNat = 2 ^ 64 - 1 → exec .refill s = .next
      { s with eng := { s.eng with err := .counterExhausted, pbuf := none, xblk := none, phase := .idle } }) ∧
    (x.toNat ≠ 2 ^ 64 - 1 → s.ksReady = true →
      ∃ (y : BitVec 64) (m : Memory), y.toNat = x.toNat + 1 ∧
        exec .refill s = .next
          { s with eng := { s.eng with xctr := some y, xblk := some m, xcur := some 0, phase := .tst } } ∧
        (∀ j, j < 64 → Memory.byteAt m j = some (Config.stream s.eng.seed Config.nonce (y.toNat * 64 + j))) ∧
        (∀ j, 64 ≤ j → Memory.byteAt m j = s.eng.byteOf .xblk j))

/-- 42_sampler_loop.md R165: RED stores `(lo_u + (U mod RANGE)) mod 2^WBITS` over element `IDX`, `WB` bytes from
`IDX * WB`, and moves `IDX` by one; every other byte of `PBUF` reads as before, and nothing else changes. That an `IDX`
at its top, which no run reaches, goes to 0 is the model's choice (log entry 28). -/
def Obligations.RedStoresTheReducedValue : Prop :=
  ∀ (s : State) (i : BitVec 32) (u r : BitVec 64), s.eng.idx = some i → s.eng.u = some u → s.eng.range = some r →
    r.toNat ≠ 0 →
    (∀ j, j < s.eng.wt.bytes → (s.eng.byteOf .pbuf (i.toNat * s.eng.wt.bytes + j)).isSome = true) →
    ∃ m : Memory,
      exec .red s = .next { s with eng := { s.eng with pbuf := some m, idx := some (i + 1), phase := .ld } } ∧
      Memory.readLE m (i.toNat * s.eng.wt.bytes) s.eng.wt.bytes =
        some ((s.eng.lo.toNat % 2 ^ s.eng.wt.bits + u.toNat % r.toNat) % 2 ^ s.eng.wt.bits) ∧
      ∀ a, a < i.toNat * s.eng.wt.bytes ∨ i.toNat * s.eng.wt.bytes + s.eng.wt.bytes ≤ a →
        Memory.byteAt m a = s.eng.byteOf .pbuf a

/-- 42_sampler_loop.md R168: on a range that is not empty the pattern RED makes from an accepted value `u` reads as
the signed number `lo + (u mod RANGE)`, exactly, and lies in `[lo, hi)`. -/
def Obligations.TheReductionIsExact : Prop :=
  ∀ (s : State) (u r : BitVec 64), s.eng.loS < s.eng.hiS → s.eng.u = some u → s.eng.range = some r →
    (r.toNat : Int) = s.eng.hiS - s.eng.loS →
    toS s.eng.wt.bits s.reduced = s.eng.loS + (u.toNat % r.toNat : Nat) ∧
    s.eng.loS ≤ toS s.eng.wt.bits s.reduced ∧ toS s.eng.wt.bits s.reduced < s.eng.hiS

/-- 42_sampler_loop.md R166: FIN makes `XBLK` invalid and presents the result; every working register and `PBUF` keep
what they hold. -/
def Obligations.FinPresentsTheResult : Prop :=
  ∀ s : State, exec .fin s = .next { s with eng := { s.eng with xblk := none, phase := .done } }

/-! ### DERIVE -/

/-- 40_keystream_source.md R121, R122, R124, R127 to R129: without initialisation DERIVE raises InitializationError,
past the end of the addressable stream CounterExhausted, and then writes nothing (error entry, 60_exceptions.md R228);
otherwise it writes bytes `c*64 .. c*64+len-1` of the stream over bytes `0 .. len-1` of the destination and makes it
valid; every other byte reads as before, and nothing else changes. -/
def Obligations.DeriveFillsTheDestinationOrRaises : Prop :=
  ∀ (s : State) (c : BitVec 64) (n : BitVec 35),
    (∀ dst, s.ksReady = false → exec (.derive dst c n) s = .next
      { s with eng := { s.eng with err := .initialization, pbuf := none, xblk := none, phase := .idle } }) ∧
    (∀ dst, s.ksReady = true → 2 ^ 64 * 64 < c.toNat * 64 + n.toNat → exec (.derive dst c n) s = .next
      { s with eng := { s.eng with err := .counterExhausted, pbuf := none, xblk := none, phase := .idle } }) ∧
    (s.ksReady = true → c.toNat * 64 + n.toNat ≤ 2 ^ 64 * 64 → ∃ m : Memory,
      exec (.derive .pbuf c n) s = .next { s with eng := { s.eng with pbuf := some m } } ∧
      (∀ j, j < n.toNat → Memory.byteAt m j = some (Config.stream s.eng.seed Config.nonce (c.toNat * 64 + j))) ∧
      (∀ j, n.toNat ≤ j → Memory.byteAt m j = s.eng.byteOf .pbuf j)) ∧
    (s.ksReady = true → c.toNat * 64 + n.toNat ≤ 2 ^ 64 * 64 → n.toNat ≤ 64 → ∃ m : Memory,
      exec (.derive .xblk c n) s = .next { s with eng := { s.eng with xblk := some m } } ∧
      (∀ j, j < n.toNat → Memory.byteAt m j = some (Config.stream s.eng.seed Config.nonce (c.toNat * 64 + j))) ∧
      (∀ j, n.toNat ≤ j → Memory.byteAt m j = s.eng.byteOf .xblk j))

/-- The model's choice, log entry 8: an engine access that meets a byte that does not exist or holds no value stops
the machine by name; it invents no value and writes nothing. Such bytes are those of 93 U13 and U14, and the bytes
that XBLK does not have. -/
def Obligations.AccessToAnAbsentByteStops : Prop :=
  ∀ s : State,
    (∀ i, s.eng.idx = some i → i ≠ s.eng.count →
      Engine.readBuffer s.eng .pbuf (i.toNat * s.eng.wt.bytes) s.eng.wt.bytes = none →
      exec .ld s = .fault (.absentByte .pbuf (i.toNat * s.eng.wt.bytes))) ∧
    (∀ c, s.eng.xcur = some c →
      Engine.readBuffer s.eng .xblk (c.toNat * s.eng.wt.bytes) s.eng.wt.bytes = none →
      exec .pull s = .fault (.absentByte .xblk (c.toNat * s.eng.wt.bytes))) ∧
    (∀ i, s.eng.idx = some i →
      Engine.readBuffer s.eng .pbuf (i.toNat * s.eng.wt.bytes) s.eng.wt.bytes = none →
      exec .red s = .fault (.absentByte .pbuf (i.toNat * s.eng.wt.bytes))) ∧
    (∀ (c : BitVec 64) (n : BitVec 35), s.ksReady = true → c.toNat * 64 + n.toNat ≤ 2 ^ 64 * 64 → 64 < n.toNat →
      exec (.derive .xblk c n) s = .fault (.absentByte .xblk 64))

/-! ### Rules over all instructions -/

/-- 10_state.md R21, R45, 70_reset_and_hazards.md R255: while the engine is busy no instruction changes an argument
register or the width. -/
def Obligations.ArgumentsAreFrozenWhileBusy : Prop :=
  ∀ (i : Instr) (s t : State), s.eng.busy = true → exec i s = .next t →
    t.eng.seed = s.eng.seed ∧ t.eng.count = s.eng.count ∧ t.eng.lo = s.eng.lo ∧ t.eng.hi = s.eng.hi ∧
    t.eng.wt = s.eng.wt

/-- 30_encoding.md R99, 60_exceptions.md R224, 10_state.md R45: while the engine is busy every transaction and command
gives exactly one response and changes nothing else, and it is `NAK_BUSY` but for a read of `STATUS`. -/
def Obligations.TheHostCannotDisturbABusyEngine : Prop :=
  ∀ (i : Instr) (s : State), s.eng.busy = true →
    (∃ a, i = .rd a) ∨ (∃ a v, i = .wr a v) ∨ (∃ a n, i = .rdp a n) ∨ i = .ksinit ∨ i = .gen32 ∨ i = .gen64 →
    ∃ r : Reply, exec i s = .next { s with replies := r :: s.replies } ∧ (i ≠ .rd 12 → r = ⟨.nakBusy, none⟩)

/-- 10_state.md R28: no instruction takes `KS_READY` from 1 to 0, and only a KSINIT whose draw is true takes it from 0
to 1. -/
def Obligations.KsReadyOnlyRises : Prop :=
  ∀ (i : Instr) (s t : State), exec i s = .next t →
    (s.ksReady = true → t.ksReady = true) ∧
    (s.ksReady = false → t.ksReady = true →
      (i = .ksinit ∨ i = .wr 11 1) ∧ s.eng.busy = false ∧ Config.initOk s.stepNo = true)

/-- 10_state.md R27, 60_exceptions.md R228, R229, R230: an instruction that leaves an error code that was not there has
entered the error: both buffers are invalid and the phase is `IDLE`; and a code is cleared only by an accepted
GEN. -/
def Obligations.AnErrorLeavesNoOutput : Prop :=
  ∀ (i : Instr) (s t : State), exec i s = .next t →
    (t.eng.err ≠ s.eng.err → t.eng.err ≠ .none →
      t.eng.phase = .idle ∧ t.eng.pbuf = none ∧ t.eng.xblk = none) ∧
    (s.eng.err ≠ .none → t.eng.err = .none →
      i = .gen32 ∨ i = .gen64 ∨ i = .wr 11 0x2 ∨ i = .wr 11 0x12)

/-- 10_state.md R29: the width tag is written only at acceptance of a GEN command, with that command's tag. -/
def Obligations.OnlyGenWritesTheWidth : Prop :=
  ∀ (i : Instr) (s t : State), exec i s = .next t → t.eng.wt ≠ s.eng.wt →
    s.eng.busy = false ∧ t.eng.phase = .chk ∧
    (((i = .gen32 ∨ i = .wr 11 0x2) ∧ t.eng.wt = .w32) ∨ ((i = .gen64 ∨ i = .wr 11 0x12) ∧ t.eng.wt = .w64))

/-- 20_memory.md R60, R71, 42_sampler_loop.md R161 to R163: the frame of memory. The instructions that store to no
buffer leave both as they were: every read and refused write, the commands but GEN, the resting phases, THR, LD, TST,
PULL. -/
def Obligations.InstructionsThatStoreNothingLeaveTheBuffers : Prop :=
  ∀ (i : Instr) (s t : State),
    (∃ a, i = .rd a) ∨ (∃ a v, i = .wr a v ∧ a ≠ 11) ∨ (∃ a n, i = .rdp a n) ∨ i = .ksinit ∨ i = .idle ∨ i = .done ∨
      i = .thr ∨ i = .ld ∨ i = .tst ∨ i = .pull →
    exec i s = .next t → ∀ b a, t.eng.byteOf b a = s.eng.byteOf b a

/-- 20_memory.md R81, 60_exceptions.md R235: no instruction of one engine touches another; a step touches the others
only by the reset event, which resets all of them, or by the model's change of focus (log entry 12); and no step makes
or removes an engine. -/
def Obligations.EnginesDoNotTouchEachOther : Prop :=
  (∀ (i : Instr) (s t : State), exec i s = .next t → t.peers = s.peers) ∧
  (∀ (s t : State), step s = .next t → (∀ rest, s.agenda ≠ .reset :: rest) →
    (∀ k rest, s.agenda ≠ .select k :: rest) → t.peers = s.peers) ∧
  (∀ (s t : State), step s = .next t → t.peers.length = s.peers.length)

/-- Every memory operation keeps the one canonical form of both buffers, in any state, reached or not (the model's
form of memory, log entry 8). -/
def Obligations.MemoryStaysCanonical : Prop :=
  ∀ (i : Instr) (s t : State),
    (∀ b m, s.eng.buffer b = some m → Memory.wf m) → exec i s = .next t →
    ∀ b m, t.eng.buffer b = some m → Memory.wf m

/-! ### The invariant of every step -/

/-- The state after reset meets the invariant. -/
def Obligations.ResetMeetsTheInvariant : Prop := State.reset.Inv

/-- 42_sampler_loop.md R178 (b) to (d), (f), 10_state.md R42, R33: from every state that meets the invariant, whatever
the agenda, a step leads to one that meets it: the primary buffer holds final results below `IDX` and raw stream
elements from there on, the extra block holds the stream block of `XCTR`, which lies beyond the gap, and the cursor is
at the block's end only in `RFL`. -/
def Obligations.EveryStepKeepsTheInvariant : Prop :=
  ∀ s t : State, s.Inv → step s = .next t → t.Inv

/-- 42_sampler_loop.md R167, 93 section 3: from every state that meets the invariant the machine steps: there is no
fault and no refusal, and no micro-operation meets a register or a byte that holds no value. -/
def Obligations.TheMachineNeverStops : Prop :=
  ∀ s : State, s.Inv → ∃ t, step s = .next t

/-- 42_sampler_loop.md R167: the transition table. From a busy phase the engine's step goes to a successor of the
table, and to `IDLE` only with an error code. -/
def Obligations.TheTransitionTableHolds : Prop :=
  ∀ s t : State, s.Inv → s.eng.busy = true → s.engineMoves → step s = .next t →
    follows s.eng.phase t.eng.phase = true ∧ (t.eng.phase = .idle → t.eng.err ≠ .none) ∧
    (t.eng.phase ≠ .idle → t.eng.err = .none)

/-- 20_memory.md R73: while an extra block is held, its counter lies beyond the gap: every byte index it reads is at
least a block above every byte index of the primary region, and `XCTR * 64 > BLEN`. -/
def Obligations.TheExtraRegionNeverAliases : Prop :=
  ∀ (s : State) (x : BitVec 64) (n : BitVec 35), s.Inv → s.eng.busy = true → s.eng.xctr = some x →
    s.eng.blen = some n → n.toNat + 64 ≤ x.toNat * 64 ∧ n.toNat < x.toNat * 64

/-- 42_sampler_loop.md R170: when FIN ends a call, every element of `PBUF`, read as a signed value, lies in
`[lo, hi)`. -/
def Obligations.EveryResultIsInRange : Prop :=
  ∀ s t : State, s.Inv → s.eng.phase = .fin → s.engineMoves → step s = .next t →
    t.eng.phase = .done ∧
    ∀ i, i < t.eng.count.toNat → ∃ v, t.eng.elem .pbuf i = some v ∧
      t.eng.loS ≤ toS t.eng.wt.bits v ∧ toS t.eng.wt.bits v < t.eng.hiS

/-- 42_sampler_loop.md R169, R176, R178 (a), (e): from every state that meets the invariant and stands where the closed
form says, the engine's step leads to one that does. -/
def Obligations.EveryStepKeepsTheClosedForm : Prop :=
  ∀ s t : State, s.Inv → s.eng.Traced → s.engineMoves → step s = .next t → t.eng.Traced

/-- 42_sampler_loop.md R169: when FIN ends a call that stands where the closed form says, `K` extra elements having been
used for the accepted values `v_0 .. v_{N-1}`: element `i` of `PBUF` is `(lo_u + (v_i mod RANGE)) mod 2^WBITS`, `IDX` is
`N`, `U` is `v_{N-1}`, `XCTR` is `PBC + 1 + K div EPB` and `XCUR` is `K mod EPB`. -/
def Obligations.ACallEndsInTheClosedForm : Prop :=
  ∀ s t : State, s.Inv → s.eng.Traced → s.eng.phase = .fin → s.engineMoves → step s = .next t →
    ∃ (k : Nat) (vs : List Nat) (x : BitVec 64) (c : BitVec 5),
      t.eng.phase = .done ∧ t.eng.Scanned t.eng.count.toNat k vs ∧ vs.length = t.eng.count.toNat ∧
      (∀ i v, vs[i]? = some v → t.eng.elem .pbuf i =
        some ((t.eng.loU + v % (t.eng.hiS - t.eng.loS).toNat) % 2 ^ t.eng.wt.bits)) ∧
      t.eng.idx = some t.eng.count ∧ (∀ v, vs.getLast? = some v → ∃ u : BitVec 64, t.eng.u = some u ∧ u.toNat = v) ∧
      t.eng.xctr = some x ∧ t.eng.xcur = some c ∧
      x.toNat = t.eng.blockCount + 1 + k / t.eng.wt.epb ∧ c.toNat = k % t.eng.wt.epb

/-- 42_sampler_loop.md R169, R172, 70_reset_and_hazards.md R262: a call ends under an explicit hypothesis on the stream:
that the closed form has a value for every element (every rejected element finds a replacement) and uses few enough
extra elements for the counter. The engine left to itself, from the `DPRI` of a call that passed CHK, is in `DONE` after
exactly `5 + 3N + 2K + K div EPB` steps (CHK was the sixth), with the results of the closed form in `PBUF`. That the
engine moves when the agenda is empty is the model's (log entry 1). -/
def Obligations.ACallCompletes : Prop :=
  ∀ (s : State) (k : Nat) (vs : List Nat), s.Inv → s.eng.phase = .dpri → s.agenda = [] →
    s.eng.Scanned s.eng.count.toNat k vs → s.eng.blockCount + 1 + k / s.eng.wt.epb < 2 ^ 64 →
    ∃ t, s.run (5 + 3 * s.eng.count.toNat + 2 * k + k / s.eng.wt.epb) = .next t ∧
      t.eng.phase = .done ∧ t.eng.err = .none ∧
      ∀ i v, vs[i]? = some v → t.eng.elem .pbuf i =
        some ((s.eng.loU + v % (s.eng.hiS - s.eng.loS).toNat) % 2 ^ s.eng.wt.bits)

/-- 42_sampler_loop.md R169: the closed form is a function of the call: two scans of the same elements take the same
values and use the same number of extra elements. -/
def Obligations.TheClosedFormIsAFunction : Prop :=
  ∀ (e : Engine) (i k k' : Nat) (vs vs' : List Nat),
    e.Scanned i k vs → e.Scanned i k' vs' → k = k' ∧ vs = vs'

/-- 43_host_interface.md R200: two engines in the same call, whatever else differs between the two machines (other
engines, earlier calls, the free draws, the upper halves of `LO` and `HI` in a 32-bit call), are in the same call after
each step of theirs; and so they begin: an accepted GEN puts engines with equal arguments in the same call. -/
def Obligations.ACallDependsOnItsArgumentsAlone : Prop :=
  (∀ s t s' t' : State, s.Inv → s'.Inv → s.ksReady = s'.ksReady → s.eng.SameCall s'.eng → s.eng.busy = true →
    s.engineMoves → s'.engineMoves → step s = .next t → step s' = .next t' →
    t.eng.SameCall t'.eng ∧ t.ksReady = t'.ksReady) ∧
  (∀ e f : Engine, ∀ w : Width, e.seed = f.seed → e.count = f.count →
    e.lo.toNat % 2 ^ w.bits = f.lo.toNat % 2 ^ w.bits → e.hi.toNat % 2 ^ w.bits = f.hi.toNat % 2 ^ w.bits →
    (e.accept w).SameCall (f.accept w))

/-! ### Codes and engines -/

/-- The codes of 10_state.md R25, R29 and 30_encoding.md R95, R97 to R99, each as its table numbers it. -/
def Obligations.CodesAreThoseOfTheTables : Prop :=
  [Buffer.pbuf, .xblk].map Buffer.code = [0, 1] ∧
  [ResponseCode.ack, .nakBusy, .nakIllegal, .nakAccess].map ResponseCode.code = [0, 1, 2, 3] ∧
  [ErrorCode.none, .initialization, .validation, .counterExhausted].map errorCode = [0, 1, 2, 3] ∧
  [Width.w32, .w64].map Width.tag = [0, 1] ∧
  [Phase.idle, .chk, .dpri, .dext, .thr, .ld, .tst, .pull, .refill, .red, .fin, .done].map Phase.code =
    [0, 1, 2, 3, 4, 5, 6, 7, 8, 9, 10, 11]

/-- 00_scope.md R12, 60_exceptions.md R235, 10_state.md R46: `NUM_ENGINES` engines, however many, leave reset together,
all with the same reset values and in `IDLE`. -/
def Obligations.AllEnginesLeaveResetAlike : Prop :=
  1 ≤ Config.numEngines ∧ (State.reset.eng :: State.reset.peers).length = Config.numEngines ∧
  ∀ e ∈ State.reset.eng :: State.reset.peers, e = Engine.reset ∧ e.phase = .idle
end

