-- ==== Sys2Proof/Laws/Memory.lean ====
section
/-! SUPPORT. Byte memory: what a read gives after a write or a fill, and that every operation keeps the one
canonical form. -/

namespace Sys2Proof.Machine

/-! ### One byte -/

@[simp] theorem Memory.byteAt_nil (a : Nat) : Memory.byteAt [] a = none := rfl

@[simp] theorem Memory.wf_nil : Memory.wf [] := List.Pairwise.nil

theorem Memory.byteAt_putByte (m : Memory) (a b : Nat) (v : Byte) :
    Memory.byteAt (Memory.putByte m a v) b = if a = b then some v else Memory.byteAt m b := by
  induction m with
  | nil => simp [Memory.putByte, Memory.byteAt]
  | cons c m ih =>
    simp only [Memory.putByte]
    split
    · simp [Memory.byteAt]
    · split
      · simp only [Memory.byteAt]; grind
      · simp only [Memory.byteAt, ih]; grind

theorem Memory.mem_putByte {m : Memory} {a : Nat} {v : Byte} {c : Host.Cell}
    (h : c ∈ Memory.putByte m a v) : c = (a, v) ∨ c ∈ m := by
  induction m with
  | nil => simpa [Memory.putByte] using h
  | cons d m ih => simp only [Memory.putByte] at h; grind

theorem Memory.wf_putByte {m : Memory} (h : Memory.wf m) (a : Nat) (v : Byte) :
    Memory.wf (Memory.putByte m a v) := by
  induction m with
  | nil => simp [Memory.putByte, Memory.wf]
  | cons c m ih =>
    obtain ⟨h₁, h₂⟩ := List.pairwise_cons.1 h
    simp only [Memory.putByte]
    split
    · exact List.pairwise_cons.2 ⟨by grind, h⟩
    · split
      · exact List.pairwise_cons.2 ⟨by grind, h₂⟩
      · refine List.pairwise_cons.2 ⟨fun d hd => ?_, ih h₂⟩
        rcases Memory.mem_putByte hd with rfl | hd
        · grind
        · exact h₁ d hd

/-! ### Elements -/

theorem Memory.readLE_succ (m : Memory) (a n : Nat) :
    Memory.readLE m a (n + 1) =
      (Memory.byteAt m a).bind fun b => (Memory.readLE m (a + 1) n).map fun v => b.toNat + 256 * v := by
  rw [Memory.readLE]
  cases Memory.byteAt m a <;> cases Memory.readLE m (a + 1) n <;> rfl

/-- A read depends on the bytes it covers, and on no others. -/
theorem Memory.readLE_congr {m m' : Memory} {a n : Nat}
    (h : ∀ b, a ≤ b → b < a + n → Memory.byteAt m b = Memory.byteAt m' b) :
    Memory.readLE m a n = Memory.readLE m' a n := by
  induction n generalizing a with
  | zero => rfl
  | succ n ih =>
    rw [Memory.readLE_succ, Memory.readLE_succ, h a le_rfl (by omega), ih fun b h₁ h₂ => h b (by omega) (by omega)]

theorem Memory.readLE_isSome {m : Memory} {a n : Nat} :
    (Memory.readLE m a n).isSome = true ↔ ∀ b, a ≤ b → b < a + n → (Memory.byteAt m b).isSome = true := by
  induction n generalizing a with
  | zero => simp [Memory.readLE]; omega
  | succ n ih =>
    rw [Memory.readLE_succ]
    constructor
    · intro h b h₁ h₂
      obtain ⟨x, hx⟩ := Option.isSome_iff_exists.1 h
      simp only [Option.bind_eq_some_iff, Option.map_eq_some_iff] at hx
      obtain ⟨y, hy, z, hz, -⟩ := hx
      rcases Nat.eq_or_lt_of_le h₁ with rfl | h₁
      · simp [hy]
      · exact ih.1 (by simp [hz]) b h₁ (by omega)
    · intro h
      obtain ⟨y, hy⟩ := Option.isSome_iff_exists.1 (h a le_rfl (by omega))
      obtain ⟨z, hz⟩ := Option.isSome_iff_exists.1 (ih (a := a + 1) |>.2 fun b h₁ h₂ => h b (by omega) (by omega))
      simp [hy, hz]

theorem Memory.readLE_lt {m : Memory} {a n v : Nat} (h : Memory.readLE m a n = some v) : v < 256 ^ n := by
  induction n generalizing a v with
  | zero => simp [Memory.readLE] at h; omega
  | succ n ih =>
    rw [Memory.readLE_succ] at h
    simp only [Option.bind_eq_some_iff, Option.map_eq_some_iff] at h
    obtain ⟨b, -, w, hw, rfl⟩ := h
    have := ih hw
    have := b.isLt
    rw [pow_succ]; omega

/-- A write leaves every byte outside the ones it covers as it was. -/
theorem Memory.byteAt_writeLE_outside (m : Memory) (a n v b : Nat) (h : b < a ∨ a + n ≤ b) :
    Memory.byteAt (Memory.writeLE m a n v) b = Memory.byteAt m b := by
  induction n generalizing m a v with
  | zero => rfl
  | succ n ih =>
    rw [Memory.writeLE, ih _ _ _ (by omega), Memory.byteAt_putByte, if_neg (by omega)]

/-- Byte `j` of a write is byte `j` of the value, the least significant first (20_memory.md R66). -/
theorem Memory.byteAt_writeLE_inside (m : Memory) (a n v j : Nat) (h : j < n) :
    Memory.byteAt (Memory.writeLE m a n v) (a + j) = some (BitVec.ofNat 8 (v / 256 ^ j)) := by
  induction n generalizing m a v j with
  | zero => omega
  | succ n ih =>
    rw [Memory.writeLE]
    cases j with
    | zero =>
      rw [Memory.byteAt_writeLE_outside _ _ _ _ _ (by omega), Memory.byteAt_putByte]
      simp
    | succ j =>
      have := ih (Memory.putByte m a (BitVec.ofNat 8 v)) (a + 1) (v / 256) j (by omega)
      rw [show a + (j + 1) = a + 1 + j by omega, this, Nat.div_div_eq_div_mul, pow_succ, Nat.mul_comm]

theorem Memory.readLE_writeLE (m : Memory) (a n v : Nat) :
    Memory.readLE (Memory.writeLE m a n v) a n = some (v % 256 ^ n) := by
  induction n generalizing m a v with
  | zero => simp [Memory.readLE, Nat.mod_one]
  | succ n ih =>
    rw [Memory.readLE_succ, Memory.writeLE, ih, Memory.byteAt_writeLE_outside _ _ _ _ _ (by omega),
      Memory.byteAt_putByte, if_pos rfl]
    have h : v % 256 ^ (n + 1) = v % 256 + 256 * (v / 256 % 256 ^ n) := by
      rw [pow_succ, Nat.mul_comm, Nat.mod_mul]
    rw [h]
    rfl

theorem Memory.wf_writeLE {m : Memory} (h : Memory.wf m) (a n v : Nat) : Memory.wf (Memory.writeLE m a n v) := by
  induction n generalizing m a v with
  | zero => exact h
  | succ n ih => exact ih (Memory.wf_putByte h _ _) _ _

/-! ### Filling -/

theorem Memory.byteAt_append (m m' : Memory) (a : Nat) :
    Memory.byteAt (m ++ m') a = (Memory.byteAt m a).or (Memory.byteAt m' a) := by
  induction m with
  | nil => simp
  | cons c m ih => simp only [List.cons_append, Memory.byteAt]; split <;> simp_all

theorem Memory.byteAt_range (len : Nat) (f : Nat → Byte) (a : Nat) :
    Memory.byteAt ((List.range len).map fun j => (j, f j)) a = if a < len then some (f a) else none := by
  induction len with
  | zero => simp
  | succ n ih =>
    rw [List.range_succ, List.map_append, Memory.byteAt_append, ih]
    simp only [List.map_cons, List.map_nil, Memory.byteAt]
    grind

theorem Memory.byteAt_filter (m : Memory) (len a : Nat) :
    Memory.byteAt (m.filter fun c => len ≤ c.1) a = if len ≤ a then Memory.byteAt m a else none := by
  induction m with
  | nil => simp
  | cons c m ih => simp only [List.filter_cons, Memory.byteAt]; grind [Memory.byteAt]

/-- A fill writes its first `len` bytes and leaves the rest as they were (40_keystream_source.md R121). -/
theorem Memory.byteAt_fill (m : Memory) (len : Nat) (f : Nat → Byte) (a : Nat) :
    Memory.byteAt (Memory.fill m len f) a = if a < len then some (f a) else Memory.byteAt m a := by
  rw [Memory.fill, Memory.byteAt_append, Memory.byteAt_range, Memory.byteAt_filter]
  grind

theorem Memory.wf_fill {m : Memory} (h : Memory.wf m) (len : Nat) (f : Nat → Byte) :
    Memory.wf (Memory.fill m len f) := by
  refine List.pairwise_append.2 ⟨?_, h.filter _, ?_⟩
  · exact List.pairwise_map.2 List.pairwise_lt_range
  · simp only [List.mem_map, List.mem_range, List.mem_filter, decide_eq_true_eq]
    rintro _ ⟨j, hj, rfl⟩ d ⟨-, hd⟩
    exact hj.trans_le hd

/-! ### The stream as elements -/

theorem streamLE_lt (seed : Config.Seed) (k n : Nat) : streamLE seed k n < 256 ^ n := by
  induction n generalizing k with
  | zero => simp [streamLE]
  | succ n ih =>
    have := ih (k + 1)
    have := (Config.stream seed Config.nonce k).isLt
    rw [streamLE, pow_succ]; omega

/-- Bytes that are stream bytes read as the stream's elements (20_memory.md R66). -/
theorem Memory.readLE_stream {m : Memory} {seed : Config.Seed} {a k n : Nat}
    (h : ∀ j, j < n → Memory.byteAt m (a + j) = some (Config.stream seed Config.nonce (k + j))) :
    Memory.readLE m a n = some (streamLE seed k n) := by
  induction n generalizing a k with
  | zero => rfl
  | succ n ih =>
    have hs := ih (a := a + 1) (k := k + 1) fun j hj => by
      have := h (j + 1) (by omega)
      rwa [show a + (j + 1) = a + 1 + j by omega, show k + (j + 1) = k + 1 + j by omega] at this
    have h0 := h 0 (by omega)
    simp only [Nat.add_zero] at h0
    rw [Memory.readLE_succ, h0, hs]
    rfl

end Sys2Proof.Machine
end

