-- ==== Sys2Proof/Laws/State.lean ====
section
/-! SUPPORT. One lemma per field per update of the state and of an engine, so that no later proof unfolds an
update. -/

namespace Sys2Proof.Machine

variable (s : State) (e : Engine)

/-! ### `withEngine` -/

@[simp] theorem State.withEngine_eng (f : Engine) : (s.withEngine f).eng = f := rfl

@[simp] theorem State.withEngine_peers (f : Engine) : (s.withEngine f).peers = s.peers := rfl

@[simp] theorem State.withEngine_ksReady (f : Engine) : (s.withEngine f).ksReady = s.ksReady := rfl

@[simp] theorem State.withEngine_agenda (f : Engine) : (s.withEngine f).agenda = s.agenda := rfl

@[simp] theorem State.withEngine_replies (f : Engine) : (s.withEngine f).replies = s.replies := rfl

@[simp] theorem State.withEngine_stepNo (f : Engine) : (s.withEngine f).stepNo = s.stepNo := rfl

/-! ### `respond` -/

@[simp] theorem State.respond_eng (r : Reply) : (s.respond r).eng = s.eng := rfl

@[simp] theorem State.respond_peers (r : Reply) : (s.respond r).peers = s.peers := rfl

@[simp] theorem State.respond_ksReady (r : Reply) : (s.respond r).ksReady = s.ksReady := rfl

@[simp] theorem State.respond_agenda (r : Reply) : (s.respond r).agenda = s.agenda := rfl

@[simp] theorem State.respond_replies (r : Reply) : (s.respond r).replies = r :: s.replies := rfl

@[simp] theorem State.respond_stepNo (r : Reply) : (s.respond r).stepNo = s.stepNo := rfl

/-! ### `ack` -/

@[simp] theorem State.ack_eng : (s.ack).eng = s.eng := rfl

@[simp] theorem State.ack_peers : (s.ack).peers = s.peers := rfl

@[simp] theorem State.ack_ksReady : (s.ack).ksReady = s.ksReady := rfl

@[simp] theorem State.ack_agenda : (s.ack).agenda = s.agenda := rfl

@[simp] theorem State.ack_replies : (s.ack).replies = ⟨.ack, none⟩ :: s.replies := rfl

@[simp] theorem State.ack_stepNo : (s.ack).stepNo = s.stepNo := rfl

/-! ### `ackData` -/

@[simp] theorem State.ackData_eng (v : Nat) : (s.ackData v).eng = s.eng := rfl

@[simp] theorem State.ackData_peers (v : Nat) : (s.ackData v).peers = s.peers := rfl

@[simp] theorem State.ackData_ksReady (v : Nat) : (s.ackData v).ksReady = s.ksReady := rfl

@[simp] theorem State.ackData_agenda (v : Nat) : (s.ackData v).agenda = s.agenda := rfl

@[simp] theorem State.ackData_replies (v : Nat) : (s.ackData v).replies = ⟨.ack, some v⟩ :: s.replies := rfl

@[simp] theorem State.ackData_stepNo (v : Nat) : (s.ackData v).stepNo = s.stepNo := rfl

/-! ### `nak` -/

@[simp] theorem State.nak_eng (c : ResponseCode) : (s.nak c).eng = s.eng := rfl

@[simp] theorem State.nak_peers (c : ResponseCode) : (s.nak c).peers = s.peers := rfl

@[simp] theorem State.nak_ksReady (c : ResponseCode) : (s.nak c).ksReady = s.ksReady := rfl

@[simp] theorem State.nak_agenda (c : ResponseCode) : (s.nak c).agenda = s.agenda := rfl

@[simp] theorem State.nak_replies (c : ResponseCode) : (s.nak c).replies = ⟨c, none⟩ :: s.replies := rfl

@[simp] theorem State.nak_stepNo (c : ResponseCode) : (s.nak c).stepNo = s.stepNo := rfl

/-! ### `raise` -/

@[simp] theorem State.raise_eng (c : ErrorCode) : (s.raise c).eng = { s.eng with err := c, pbuf := none, xblk := none, phase := .idle } := rfl

@[simp] theorem State.raise_peers (c : ErrorCode) : (s.raise c).peers = s.peers := rfl

@[simp] theorem State.raise_ksReady (c : ErrorCode) : (s.raise c).ksReady = s.ksReady := rfl

@[simp] theorem State.raise_agenda (c : ErrorCode) : (s.raise c).agenda = s.agenda := rfl

@[simp] theorem State.raise_replies (c : ErrorCode) : (s.raise c).replies = s.replies := rfl

@[simp] theorem State.raise_stepNo (c : ErrorCode) : (s.raise c).stepNo = s.stepNo := rfl

/-! ### `advance` -/

@[simp] theorem State.advance_eng : (s.advance).eng = s.eng := rfl

@[simp] theorem State.advance_peers : (s.advance).peers = s.peers := rfl

@[simp] theorem State.advance_ksReady : (s.advance).ksReady = s.ksReady := rfl

@[simp] theorem State.advance_agenda : (s.advance).agenda = s.agenda.tail := rfl

@[simp] theorem State.advance_replies : (s.advance).replies = s.replies := rfl

@[simp] theorem State.advance_stepNo : (s.advance).stepNo = s.stepNo + 1 := rfl

/-! ### `resetAll` -/

@[simp] theorem State.resetAll_eng : (s.resetAll).eng = Engine.reset := rfl

@[simp] theorem State.resetAll_peers : (s.resetAll).peers = s.peers.map (fun _ => Engine.reset) := rfl

@[simp] theorem State.resetAll_ksReady : (s.resetAll).ksReady = false := rfl

@[simp] theorem State.resetAll_agenda : (s.resetAll).agenda = s.agenda := rfl

@[simp] theorem State.resetAll_replies : (s.resetAll).replies = s.replies := rfl

@[simp] theorem State.resetAll_stepNo : (s.resetAll).stepNo = s.stepNo := rfl

@[simp] theorem State.withEngine_withEngine (f g : Engine) : (s.withEngine f).withEngine g = s.withEngine g := rfl

@[simp] theorem State.withEngine_self : s.withEngine s.eng = s := rfl

/-! ### `Engine.accept` (10_state.md R47) -/

@[simp] theorem Engine.accept_seed (w : Width) : (e.accept w).seed = e.seed := rfl

@[simp] theorem Engine.accept_count (w : Width) : (e.accept w).count = e.count := rfl

@[simp] theorem Engine.accept_lo (w : Width) : (e.accept w).lo = e.lo := rfl

@[simp] theorem Engine.accept_hi (w : Width) : (e.accept w).hi = e.hi := rfl

@[simp] theorem Engine.accept_phase (w : Width) : (e.accept w).phase = .chk := rfl

@[simp] theorem Engine.accept_err (w : Width) : (e.accept w).err = .none := rfl

@[simp] theorem Engine.accept_wt (w : Width) : (e.accept w).wt = w := rfl

@[simp] theorem Engine.accept_blen (w : Width) : (e.accept w).blen = none := rfl

@[simp] theorem Engine.accept_pbc (w : Width) : (e.accept w).pbc = none := rfl

@[simp] theorem Engine.accept_xctr (w : Width) : (e.accept w).xctr = none := rfl

@[simp] theorem Engine.accept_xcur (w : Width) : (e.accept w).xcur = none := rfl

@[simp] theorem Engine.accept_range (w : Width) : (e.accept w).range = none := rfl

@[simp] theorem Engine.accept_min (w : Width) : (e.accept w).min = none := rfl

@[simp] theorem Engine.accept_idx (w : Width) : (e.accept w).idx = none := rfl

@[simp] theorem Engine.accept_u (w : Width) : (e.accept w).u = none := rfl

@[simp] theorem Engine.accept_pbuf (w : Width) : (e.accept w).pbuf = none := rfl

@[simp] theorem Engine.accept_xblk (w : Width) : (e.accept w).xblk = none := rfl

/-! ### `Engine.setBuffer` and `Engine.filled` (40_keystream_source.md R121) -/

@[simp] theorem Engine.setBuffer_pbuf (m : Memory) : (e.setBuffer .pbuf m).pbuf = some m := rfl

@[simp] theorem Engine.setBuffer_xblk (m : Memory) : (e.setBuffer .xblk m).xblk = some m := rfl

@[simp] theorem Engine.setBuffer_pbuf_xblk (m : Memory) : (e.setBuffer .pbuf m).xblk = e.xblk := rfl

@[simp] theorem Engine.setBuffer_xblk_pbuf (m : Memory) : (e.setBuffer .xblk m).pbuf = e.pbuf := rfl

@[simp] theorem Engine.setBuffer_seed (b : Buffer) (m : Memory) : (e.setBuffer b m).seed = e.seed := by
  cases b <;> rfl

@[simp] theorem Engine.setBuffer_count (b : Buffer) (m : Memory) : (e.setBuffer b m).count = e.count := by
  cases b <;> rfl

@[simp] theorem Engine.setBuffer_lo (b : Buffer) (m : Memory) : (e.setBuffer b m).lo = e.lo := by
  cases b <;> rfl

@[simp] theorem Engine.setBuffer_hi (b : Buffer) (m : Memory) : (e.setBuffer b m).hi = e.hi := by
  cases b <;> rfl

@[simp] theorem Engine.setBuffer_phase (b : Buffer) (m : Memory) : (e.setBuffer b m).phase = e.phase := by
  cases b <;> rfl

@[simp] theorem Engine.setBuffer_err (b : Buffer) (m : Memory) : (e.setBuffer b m).err = e.err := by
  cases b <;> rfl

@[simp] theorem Engine.setBuffer_wt (b : Buffer) (m : Memory) : (e.setBuffer b m).wt = e.wt := by
  cases b <;> rfl

@[simp] theorem Engine.setBuffer_blen (b : Buffer) (m : Memory) : (e.setBuffer b m).blen = e.blen := by
  cases b <;> rfl

@[simp] theorem Engine.setBuffer_pbc (b : Buffer) (m : Memory) : (e.setBuffer b m).pbc = e.pbc := by
  cases b <;> rfl

@[simp] theorem Engine.setBuffer_xctr (b : Buffer) (m : Memory) : (e.setBuffer b m).xctr = e.xctr := by
  cases b <;> rfl

@[simp] theorem Engine.setBuffer_xcur (b : Buffer) (m : Memory) : (e.setBuffer b m).xcur = e.xcur := by
  cases b <;> rfl

@[simp] theorem Engine.setBuffer_range (b : Buffer) (m : Memory) : (e.setBuffer b m).range = e.range := by
  cases b <;> rfl

@[simp] theorem Engine.setBuffer_min (b : Buffer) (m : Memory) : (e.setBuffer b m).min = e.min := by
  cases b <;> rfl

@[simp] theorem Engine.setBuffer_idx (b : Buffer) (m : Memory) : (e.setBuffer b m).idx = e.idx := by
  cases b <;> rfl

@[simp] theorem Engine.setBuffer_u (b : Buffer) (m : Memory) : (e.setBuffer b m).u = e.u := by
  cases b <;> rfl

@[simp] theorem Engine.filled_seed (r : Request) : (e.filled r).seed = e.seed :=
  e.setBuffer_seed r.dst _

@[simp] theorem Engine.filled_count (r : Request) : (e.filled r).count = e.count :=
  e.setBuffer_count r.dst _

@[simp] theorem Engine.filled_lo (r : Request) : (e.filled r).lo = e.lo :=
  e.setBuffer_lo r.dst _

@[simp] theorem Engine.filled_hi (r : Request) : (e.filled r).hi = e.hi :=
  e.setBuffer_hi r.dst _

@[simp] theorem Engine.filled_phase (r : Request) : (e.filled r).phase = e.phase :=
  e.setBuffer_phase r.dst _

@[simp] theorem Engine.filled_err (r : Request) : (e.filled r).err = e.err :=
  e.setBuffer_err r.dst _

@[simp] theorem Engine.filled_wt (r : Request) : (e.filled r).wt = e.wt :=
  e.setBuffer_wt r.dst _

@[simp] theorem Engine.filled_blen (r : Request) : (e.filled r).blen = e.blen :=
  e.setBuffer_blen r.dst _

@[simp] theorem Engine.filled_pbc (r : Request) : (e.filled r).pbc = e.pbc :=
  e.setBuffer_pbc r.dst _

@[simp] theorem Engine.filled_xctr (r : Request) : (e.filled r).xctr = e.xctr :=
  e.setBuffer_xctr r.dst _

@[simp] theorem Engine.filled_xcur (r : Request) : (e.filled r).xcur = e.xcur :=
  e.setBuffer_xcur r.dst _

@[simp] theorem Engine.filled_range (r : Request) : (e.filled r).range = e.range :=
  e.setBuffer_range r.dst _

@[simp] theorem Engine.filled_min (r : Request) : (e.filled r).min = e.min :=
  e.setBuffer_min r.dst _

@[simp] theorem Engine.filled_idx (r : Request) : (e.filled r).idx = e.idx :=
  e.setBuffer_idx r.dst _

@[simp] theorem Engine.filled_u (r : Request) : (e.filled r).u = e.u :=
  e.setBuffer_u r.dst _

/-! ### `Engine.setRegister` (43_host_interface.md R192) -/

@[simp] theorem Engine.setRegister_phase (n v : Nat) : (e.setRegister n v).phase = e.phase := by
  unfold Engine.setRegister; split; · rfl
  split <;> rfl

@[simp] theorem Engine.setRegister_err (n v : Nat) : (e.setRegister n v).err = e.err := by
  unfold Engine.setRegister; split; · rfl
  split <;> rfl

@[simp] theorem Engine.setRegister_wt (n v : Nat) : (e.setRegister n v).wt = e.wt := by
  unfold Engine.setRegister; split; · rfl
  split <;> rfl

@[simp] theorem Engine.setRegister_blen (n v : Nat) : (e.setRegister n v).blen = e.blen := by
  unfold Engine.setRegister; split; · rfl
  split <;> rfl

@[simp] theorem Engine.setRegister_pbc (n v : Nat) : (e.setRegister n v).pbc = e.pbc := by
  unfold Engine.setRegister; split; · rfl
  split <;> rfl

@[simp] theorem Engine.setRegister_xctr (n v : Nat) : (e.setRegister n v).xctr = e.xctr := by
  unfold Engine.setRegister; split; · rfl
  split <;> rfl

@[simp] theorem Engine.setRegister_xcur (n v : Nat) : (e.setRegister n v).xcur = e.xcur := by
  unfold Engine.setRegister; split; · rfl
  split <;> rfl

@[simp] theorem Engine.setRegister_range (n v : Nat) : (e.setRegister n v).range = e.range := by
  unfold Engine.setRegister; split; · rfl
  split <;> rfl

@[simp] theorem Engine.setRegister_min (n v : Nat) : (e.setRegister n v).min = e.min := by
  unfold Engine.setRegister; split; · rfl
  split <;> rfl

@[simp] theorem Engine.setRegister_idx (n v : Nat) : (e.setRegister n v).idx = e.idx := by
  unfold Engine.setRegister; split; · rfl
  split <;> rfl

@[simp] theorem Engine.setRegister_u (n v : Nat) : (e.setRegister n v).u = e.u := by
  unfold Engine.setRegister; split; · rfl
  split <;> rfl

@[simp] theorem Engine.setRegister_pbuf (n v : Nat) : (e.setRegister n v).pbuf = e.pbuf := by
  unfold Engine.setRegister; split; · rfl
  split <;> rfl

@[simp] theorem Engine.setRegister_xblk (n v : Nat) : (e.setRegister n v).xblk = e.xblk := by
  unfold Engine.setRegister; split; · rfl
  split <;> rfl

/-! ### Views of an engine that do not read what an update writes -/

@[simp] theorem Engine.busy_withPhase (p : Phase) :
    ({ e with phase := p } : Engine).busy = (stateCode p == 1) := rfl

@[simp] theorem Engine.filled_busy (r : Request) : (e.filled r).busy = e.busy := by
  simp [Engine.busy]

end Sys2Proof.Machine
end

