-- ==== Sys2Proof/Laws/Ops.lean ====
section
/-! SUPPORT. One lemma per shared operation that says what it does: widths, the signed view, the operands, the
status fields, DERIVE, the buffers. -/

namespace Sys2Proof

@[simp] theorem Width.bits_w32 : Width.w32.bits = 32 := rfl
@[simp] theorem Width.bits_w64 : Width.w64.bits = 64 := rfl
@[simp] theorem Width.bytes_w32 : Width.w32.bytes = 4 := rfl
@[simp] theorem Width.bytes_w64 : Width.w64.bytes = 8 := rfl
@[simp] theorem Width.epb_w32 : Width.w32.epb = 16 := rfl
@[simp] theorem Width.epb_w64 : Width.w64.epb = 8 := rfl

/-- The elements tile the block (20_memory.md R63). -/
theorem Width.epb_mul_bytes (w : Width) : w.epb * w.bytes = Config.blockBytes := by
  cases w <;> rfl

theorem Width.bytes_pos (w : Width) : 0 < w.bytes := by cases w <;> decide

theorem Width.epb_pos (w : Width) : 0 < w.epb := by cases w <;> decide

theorem Width.epb_lt (w : Width) : w.epb < 2 ^ 5 := by cases w <;> decide

theorem Width.pow_bytes (w : Width) : 256 ^ w.bytes = 2 ^ w.bits := by cases w <;> rfl

theorem Width.two_pow_bits_le (w : Width) : 2 ^ w.bits ≤ 2 ^ 64 := by cases w <;> decide

namespace Machine

/-! ### Arithmetic -/

theorem remainder_of_ne_zero {a b : Nat} (h : b ≠ 0) : remainder a b = a % b := if_neg h

theorem subMod_lt (k a b : Nat) : subMod k a b < 2 ^ k := by
  have h : (0 : Int) < 2 ^ k := by positivity
  have h₁ := Int.emod_lt_of_pos ((a : Int) - b) h
  have h₂ := Int.emod_nonneg ((a : Int) - b) h.ne'
  unfold subMod
  rw [Int.toNat_lt h₂]
  exact_mod_cast h₁

/-- The wrapping subtraction of two patterns is the difference of their signed views, when that is positive. -/
theorem subMod_eq (w : Width) {l u : Nat} (hl : l < 2 ^ w.bits) (hu : u < 2 ^ w.bits)
    (h : toS w.bits l < toS w.bits u) : (subMod w.bits u l : Int) = toS w.bits u - toS w.bits l := by
  cases w <;> simp only [Width.bits_w32, Width.bits_w64, toS, subMod] at * <;> norm_num at * <;> split_ifs at * <;> omega

/-- The wrapping addition of a pattern and an offset that stays below a larger bound is exact in the signed view. -/
theorem toS_add (w : Width) {l u r : Nat} (hl : l < 2 ^ w.bits) (hu : u < 2 ^ w.bits)
    (hr : toS w.bits l + r < toS w.bits u) : toS w.bits ((l + r) % 2 ^ w.bits) = toS w.bits l + r := by
  cases w <;> simp only [Width.bits_w32, Width.bits_w64, toS] at * <;> norm_num at * <;> split_ifs at * <;> omega

theorem Engine.loU_lt (e : Engine) : e.loU < 2 ^ e.wt.bits := Nat.mod_lt _ (by positivity)

theorem Engine.hiU_lt (e : Engine) : e.hiU < 2 ^ e.wt.bits := Nat.mod_lt _ (by positivity)

/-- The wrapping subtraction of the bounds is the true difference (41_sampler_setup.md R145). -/
theorem Engine.subMod_bounds {e : Engine} (h : e.loS < e.hiS) :
    (subMod e.wt.bits e.hiU e.loU : Int) = e.hiS - e.loS := subMod_eq e.wt e.loU_lt e.hiU_lt h

theorem Engine.subMod_eq_span {e : Engine} (h : e.loS < e.hiS) : subMod e.wt.bits e.hiU e.loU = e.span := by
  have := Engine.subMod_bounds h
  unfold Engine.span
  omega

theorem Engine.span_pos {e : Engine} (h : e.loS < e.hiS) : 0 < e.span := by
  unfold Engine.span; omega

theorem Engine.span_lt {e : Engine} (h : e.loS < e.hiS) : e.span < 2 ^ e.wt.bits := by
  rw [← Engine.subMod_eq_span h]; exact subMod_lt _ _ _

theorem Engine.threshold_lt {e : Engine} (h : e.loS < e.hiS) : e.threshold < 2 ^ e.wt.bits :=
  (Nat.mod_lt _ (Engine.span_pos h)).trans (Engine.span_lt h)

/-- The reduction is exact (42_sampler_loop.md R168): the stored pattern reads as `lo + (v mod RANGE)`. -/
theorem Engine.toS_resultOf {e : Engine} (h : e.loS < e.hiS) (v : Nat) :
    toS e.wt.bits (e.resultOf v) = e.loS + (v % e.span : Nat) := by
  have hr : v % e.span < e.span := Nat.mod_lt _ (Engine.span_pos h)
  refine toS_add e.wt e.loU_lt e.hiU_lt ?_
  change e.loS + _ < e.hiS
  unfold Engine.span at *
  omega

theorem Engine.resultOf_lt (e : Engine) (v : Nat) : e.resultOf v < 2 ^ e.wt.bits := Nat.mod_lt _ (by positivity)

theorem Engine.inRange_resultOf {e : Engine} (h : e.loS < e.hiS) (v : Nat) : e.inRange (e.resultOf v) := by
  have hr : v % e.span < e.span := Nat.mod_lt _ (Engine.span_pos h)
  have : (e.span : Int) = e.hiS - e.loS := by unfold Engine.span; omega
  unfold Engine.inRange
  rw [Engine.toS_resultOf h]
  omega

/-! ### Operands -/

@[simp] theorem State.valueOf_some {w : Nat} (s : State) (n : Nat) (v : BitVec w) : s.valueOf n (some v) = v := rfl

theorem State.blenValue_eq {s : State} {v : BitVec 35} (h : s.eng.blen = some v) : s.blenValue = v := by
  simp [State.blenValue, h]

theorem State.xctrValue_eq {s : State} {v : BitVec Config.counterBits} (h : s.eng.xctr = some v) :
    s.xctrValue = v := by
  simp [State.xctrValue, h]

theorem State.xcurValue_eq {s : State} {v : BitVec 5} (h : s.eng.xcur = some v) : s.xcurValue = v := by
  simp [State.xcurValue, h]

theorem State.rangeValue_eq {s : State} {v : BitVec 64} (h : s.eng.range = some v) : s.rangeValue = v := by
  simp [State.rangeValue, h]

theorem State.minValue_eq {s : State} {v : BitVec 64} (h : s.eng.min = some v) : s.minValue = v := by
  simp [State.minValue, h]

theorem State.idxValue_eq {s : State} {v : BitVec 32} (h : s.eng.idx = some v) : s.idxValue = v := by
  simp [State.idxValue, h]

theorem State.uValue_eq {s : State} {v : BitVec 64} (h : s.eng.u = some v) : s.uValue = v := by
  simp [State.uValue, h]

/-- The primary buffer's length fits its register (41_sampler_setup.md R148). -/
theorem Engine.toNat_byteLength (e : Engine) : e.byteLength.toNat = e.byteCount := by
  have h : e.count.toNat < 2 ^ 32 := e.count.isLt
  unfold Engine.byteLength Engine.byteCount
  rw [BitVec.toNat_ofNat]
  cases e.wt <;> simp only [Width.bytes_w32, Width.bytes_w64] <;> omega

theorem Engine.byteCount_lt (e : Engine) : e.byteCount < 2 ^ 35 := by
  rw [← e.toNat_byteLength]; exact e.byteLength.isLt

theorem Engine.blockCount_lt (e : Engine) : e.blockCount + Config.gapBlocks < 2 ^ 31 := by
  have := e.byteCount_lt
  unfold Engine.blockCount ceilDiv
  simp
  omega

/-! ### Buffers -/

theorem Engine.byteOf_pbuf {e : Engine} {m : Memory} (h : e.pbuf = some m) (a : Nat) :
    e.byteOf .pbuf a = Memory.byteAt m a := by
  simp [Engine.byteOf, Engine.buffer, h]

theorem Engine.byteOf_xblk {e : Engine} {m : Memory} (h : e.xblk = some m) (a : Nat) :
    e.byteOf .xblk a = Memory.byteAt m a := by
  simp [Engine.byteOf, Engine.buffer, h]

theorem Engine.elem_pbuf {e : Engine} {m : Memory} (h : e.pbuf = some m) (j : Nat) :
    e.elem .pbuf j = Memory.readLE m (j * e.wt.bytes) e.wt.bytes := by
  simp [Engine.elem, Engine.readBuffer, Engine.buffer, Engine.elemAddr, h]

theorem Engine.elem_xblk {e : Engine} {m : Memory} (h : e.xblk = some m) (j : Nat) :
    e.elem .xblk j = Memory.readLE m (j * e.wt.bytes) e.wt.bytes := by
  simp [Engine.elem, Engine.readBuffer, Engine.buffer, Engine.elemAddr, h]

/-- A byte of a filled destination is the stream's below the length and what it was above
(40_keystream_source.md R121). -/
theorem Engine.byteOf_filled (e : Engine) (r : Request) (a : Nat) :
    (e.filled r).byteOf r.dst a = if a < r.length.toNat then some (keystream r a) else e.byteOf r.dst a := by
  cases hd : r.dst <;>
    simp only [Engine.filled, hd, Engine.byteOf, Engine.buffer, Engine.setBuffer, Memory.byteAt_fill] <;>
    (split; · rfl) <;> split <;> simp_all

theorem Engine.filled_pbuf {e : Engine} {r : Request} (h : r.dst = .pbuf) :
    (e.filled r).pbuf = some (Memory.fill (e.pbuf.getD []) r.length.toNat (keystream r)) := by
  simp [Engine.filled, h, Engine.buffer]

theorem Engine.filled_pbuf_xblk {e : Engine} {r : Request} (h : r.dst = .pbuf) : (e.filled r).xblk = e.xblk := by
  simp [Engine.filled, h]

theorem Engine.filled_xblk {e : Engine} {r : Request} (h : r.dst = .xblk) :
    (e.filled r).xblk = some (Memory.fill (e.xblk.getD []) r.length.toNat (keystream r)) := by
  simp [Engine.filled, h, Engine.buffer]

theorem Engine.filled_xblk_pbuf {e : Engine} {r : Request} (h : r.dst = .xblk) : (e.filled r).pbuf = e.pbuf := by
  simp [Engine.filled, h]

/-- Filling a buffer that was invalid, from a block counter, covers exactly the bytes asked for. -/
theorem Memory.covers_fill (n : Nat) (f : Nat → Byte) : Memory.Covers (Memory.fill [] n f) n := by
  refine ⟨Memory.wf_fill Memory.wf_nil n f, fun a => ?_⟩
  rw [Memory.byteAt_fill]
  split <;> simp_all

/-- Filling all of a buffer keeps exactly its bytes. -/
theorem Memory.Covers.fill {m : Memory} {n : Nat} (h : Memory.Covers m n) (f : Nat → Byte) :
    Memory.Covers (Memory.fill m n f) n := by
  refine ⟨Memory.wf_fill h.1 n f, fun a => ?_⟩
  rw [Memory.byteAt_fill]
  have := h.2 a
  split <;> simp_all

/-- A write inside a buffer keeps exactly its bytes. -/
theorem Memory.Covers.writeLE {m : Memory} {n : Nat} (h : Memory.Covers m n) {a k : Nat} (hk : a + k ≤ n) (v : Nat) :
    Memory.Covers (Memory.writeLE m a k v) n := by
  refine ⟨Memory.wf_writeLE h.1 _ _ _, fun b => ?_⟩
  by_cases hb : b < a ∨ a + k ≤ b
  · rw [Memory.byteAt_writeLE_outside _ _ _ _ _ hb]; exact h.2 b
  · obtain ⟨j, rfl⟩ := Nat.exists_eq_add_of_le (show a ≤ b by omega)
    rw [Memory.byteAt_writeLE_inside _ _ _ _ _ (by omega)]
    simp; omega

/-- An element of a covered buffer holds a value. -/
theorem Memory.Covers.readLE {m : Memory} {n a k : Nat} (h : Memory.Covers m n) (hk : a + k ≤ n) :
    ∃ v, Memory.readLE m a k = some v :=
  Option.isSome_iff_exists.1 (Memory.readLE_isSome.2 fun b _ hb => (h.2 b).2 (by omega))

/-! ### DERIVE (40_keystream_source.md R121) -/

theorem State.deriveThen_notReady {s : State} (h : s.ksReady = false) (dst : Buffer)
    (c : BitVec Config.counterBits) (n : BitVec 35) (k : State → Result) :
    s.deriveThen dst c n k = .next (s.raise .initialization) := by
  simp [State.deriveThen, h]

theorem State.deriveThen_pastEnd {s : State} (h : s.ksReady = true) {dst : Buffer}
    {c : BitVec Config.counterBits} {n : BitVec 35} (hp : 2 ^ 64 * 64 < c.toNat * 64 + n.toNat)
    (k : State → Result) : s.deriveThen dst c n k = .next (s.raise .counterExhausted) := by
  have hp : requestPastEnd (s.eng.request dst c n) = true := decide_eq_true hp
  simp [State.deriveThen, h, hp]

theorem State.deriveThen_ok {s : State} (h : s.ksReady = true) {dst : Buffer} {c : BitVec Config.counterBits}
    {n : BitVec 35} (hp : c.toNat * 64 + n.toNat ≤ 2 ^ 64 * 64) (hx : dst = .xblk → n.toNat ≤ 64)
    (k : State → Result) :
    s.deriveThen dst c n k = k (s.withEngine (s.eng.filled (s.eng.request dst c n))) := by
  have hp : requestPastEnd (s.eng.request dst c n) = false :=
    decide_eq_false (Nat.not_lt.2 hp)
  have hx : ¬ (dst = .xblk ∧ Config.blockBytes < n.toNat) := fun ⟨h₁, h₂⟩ => by have := hx h₁; simp at h₂; omega
  simp [State.deriveThen, h, hp, hx]

/-- All a DERIVE can do: raise one of its two errors, stop on a byte XBLK does not have, or go on from the filled
state. -/
theorem State.deriveThen_cases (s : State) (dst : Buffer) (c : BitVec Config.counterBits) (n : BitVec 35)
    (k : State → Result) :
    (∃ err, err ≠ .none ∧ s.deriveThen dst c n k = .next (s.raise err)) ∨
    s.deriveThen dst c n k = .fault (.absentByte .xblk Config.blockBytes) ∨
    s.deriveThen dst c n k = k (s.withEngine (s.eng.filled (s.eng.request dst c n))) := by
  unfold State.deriveThen
  split
  · exact .inl ⟨_, by simp, rfl⟩
  split
  · exact .inl ⟨_, by simp, rfl⟩
  split
  · exact .inr (.inl rfl)
  · exact .inr (.inr rfl)

end Machine

end Sys2Proof
end

