-- ==== Sys2Proof/Laws/Exec.lean ====
section
/-! SUPPORT. What an instruction can do, said once: what the engine's own instructions keep, the five things a
host-port instruction can do, and which instruction a step runs. -/

namespace Sys2Proof

/-- A write that is not a command decodes to itself. -/
theorem decodeWrite_of_wf {reg data : Nat} (h : (Instr.wr reg data).wf = true) : decodeWrite reg data =
    .wr reg data := by
  unfold decodeWrite
  split
  · rename_i h'
    obtain ⟨rfl, hd⟩ := h'
    simp [Instr.wf, isCommandWord] at h
    have key : ∀ v : Nat, v < 2 ^ 32 → data ≠ v → BitVec.ofNat 32 data ≠ BitVec.ofNat 32 v := by
      intro v hv hne heq
      have := congrArg BitVec.toNat heq
      simp only [BitVec.toNat_ofNat, Nat.mod_eq_of_lt hd, Nat.mod_eq_of_lt hv] at this
      exact hne this
    simp only [decodeCommand]
    rw [if_neg (key 1 (by norm_num) h.1.1), if_neg (key 2 (by norm_num) h.1.2), if_neg (key 18 (by norm_num) h.2)]
  · rfl

/-- The instructions of the sequencer and the keystream source; the others come through the host port. -/
def Instr.engineOwn : Instr → Bool
  | .rd _ => false
  | .wr _ _ => false
  | .rdp _ _ => false
  | .ksinit => false
  | .gen32 => false
  | .gen64 => false
  | .idle => true
  | .chk => true
  | .dpri => true
  | .dext => true
  | .thr => true
  | .ld => true
  | .tst => true
  | .pull => true
  | .refill => true
  | .red => true
  | .fin => true
  | .done => true
  | .derive _ _ _ => true

namespace Machine

/-! ### The engine's own instructions -/

/-- What every instruction of the engine's own keeps: the arguments, the width, and all that is not the engine;
the error code too, unless it enters an error. -/
structure State.Keeps (s t : State) : Prop where
  seed : t.eng.seed = s.eng.seed
  count : t.eng.count = s.eng.count
  lo : t.eng.lo = s.eng.lo
  hi : t.eng.hi = s.eng.hi
  wt : t.eng.wt = s.eng.wt
  peers : t.peers = s.peers
  ks : t.ksReady = s.ksReady
  agenda : t.agenda = s.agenda
  replies : t.replies = s.replies
  stepNo : t.stepNo = s.stepNo
  err : t.eng.err = s.eng.err ∨ (t.eng.err ≠ .none ∧ t.eng.phase = .idle ∧ t.eng.pbuf = none ∧ t.eng.xblk = none)

/-- A fill touches only its destination. -/
theorem Engine.filled_keeps (e : Engine) (r : Request) : (e.filled r).seed = e.seed ∧ (e.filled r).count = e.count ∧
    (e.filled r).lo = e.lo ∧ (e.filled r).hi = e.hi ∧ (e.filled r).wt = e.wt ∧ (e.filled r).err = e.err := by
  unfold Engine.filled Engine.setBuffer
  cases r.dst <;> simp

theorem State.deriveThen_keeps {s : State} {d c n k t} (h : State.deriveThen s d c n k = .next t)
   (hk : ∀ u v : State, k u = .next v → u.Keeps v) : s.Keeps t := by
  rcases State.deriveThen_cases s d c n k with ⟨err, he, h'⟩ | h' | h' <;> rw [h'] at h
  · cases h; constructor <;> try rfl
    right; exact ⟨he, rfl, rfl, rfl⟩
  · cases h
  · have := hk _ _ h
    obtain ⟨a, b, c, d, e, f⟩ := Engine.filled_keeps s.eng (s.eng.request d c n)
    constructor
    · exact this.seed.trans a
    · exact this.count.trans b
    · exact this.lo.trans c
    · exact this.hi.trans d
    · exact this.wt.trans e
    · exact this.peers
    · exact this.ks
    · exact this.agenda
    · exact this.replies
    · exact this.stepNo
    · exact this.err.imp_left (fun h => h.trans f)

theorem State.Keeps.after {s s' t : State} (h : s'.Keeps t) (h0 : s.Keeps s') (he : s'.eng.err = s.eng.err)
    : s.Keeps t := by
  constructor
  · exact h.seed.trans h0.seed
  · exact h.count.trans h0.count
  · exact h.lo.trans h0.lo
  · exact h.hi.trans h0.hi
  · exact h.wt.trans h0.wt
  · exact h.peers.trans h0.peers
  · exact h.ks.trans h0.ks
  · exact h.agenda.trans h0.agenda
  · exact h.replies.trans h0.replies
  · exact h.stepNo.trans h0.stepNo
  · exact h.err.imp_left (fun h => h.trans he)

/-- The frame of the engine's own instructions. -/
theorem exec_keeps {i : Instr} {s t : State} (hm : i.engineOwn = true) (h : exec i s = .next t) : s.Keeps t := by
  cases i <;> simp [Instr.engineOwn] at hm <;> simp only [exec] at h
  case idle => cases h; constructor <;> simp
  case done => cases h; constructor <;> simp
  case chk =>
    unfold execChk at h
    split at h; · cases h; constructor <;> simp
    split at h; · cases h; constructor <;> simp
    split at h <;> (cases h; constructor <;> simp)
  case dpri =>
    unfold execDpri at h
    exact (State.deriveThen_keeps h (by rintro u v h; cases h; constructor <;> simp)).after (by constructor <;> simp)
      rfl
  case dext =>
    unfold execDext at h
    exact (State.deriveThen_keeps h (by rintro u v h; cases h; constructor <;> simp)).after (by constructor <;> simp)
      rfl
  case thr => cases h; constructor <;> simp
  case ld =>
    unfold execLd at h
    split at h; · cases h; constructor <;> simp
    split at h <;> cases h; constructor <;> simp
  case tst => cases h; constructor <;> simp
  case pull =>
    unfold execPull at h
    split at h <;> cases h; constructor <;> simp
  case refill =>
    unfold execRefill at h
    split at h; · cases h; constructor <;> simp
    exact (State.deriveThen_keeps h (by rintro u v h; cases h; constructor <;> simp)).after (by constructor <;> simp)
      rfl
  case red =>
    unfold execRed at h
    split at h <;> cases h; constructor <;> simp
  case fin => cases h; constructor <;> simp
  case derive =>
    exact State.deriveThen_keeps h (by rintro u v h; cases h; constructor <;> simp)

/-! ### The host port -/

/-- A host-port instruction finds the engine busy: one response, and nothing else. -/
theorem exec_host_busy {i : Instr} {s : State} (hm : i.engineOwn = false) (hb : s.eng.busy = true) :
    ∃ r : Reply, exec i s = .next (s.respond r) := by
  cases i <;> simp [Instr.engineOwn] at hm <;> simp only [exec]
  case rd a =>
    by_cases h : a = 12
    · subst h; exact ⟨_, rfl⟩
    · exact ⟨_, by simp only [execRd, h, hb]; rfl⟩
  all_goals
    exact ⟨_, by
      simp only [execWr, execRdp, execKsinit, execGen32, execGen64, State.commandKsinit, State.commandGen, hb]; rfl⟩

/-- All a host-port instruction can do: give a response; take the draw of a KSINIT; accept a GEN; write an
argument register. -/
theorem exec_host_cases {i : Instr} {s t : State} (hm : i.engineOwn = false) (h : exec i s = .next t) :
    (∃ r, t = s.respond r) ∨
    (s.eng.busy = false ∧ (i = .ksinit ∨ i = .wr 11 1) ∧
      t = ({ s with ksReady := s.ksReady || Config.initOk s.stepNo } : State).ack) ∨
    (s.eng.busy = false ∧ (i = .gen32 ∨ i = .wr 11 2) ∧ t = (s.withEngine (s.eng.accept .w32)).ack) ∨
    (s.eng.busy = false ∧ (i = .gen64 ∨ i = .wr 11 0x12) ∧ t = (s.withEngine (s.eng.accept .w64)).ack) ∨
    (s.eng.busy = false ∧ ∃ a v, i = .wr a v ∧ a ≠ 11 ∧ t = (s.withEngine (s.eng.setRegister a v)).ack) := by
  cases hb : s.eng.busy
  case true =>
    obtain ⟨r, h'⟩ := exec_host_busy hm hb
    rw [h'] at h; cases h
    exact .inl ⟨_, rfl⟩
  cases i <;> simp [Instr.engineOwn] at hm <;> simp only [exec] at h
  case rd =>
    unfold execRd at h
    split at h; · cases h; exact .inl ⟨_, rfl⟩
    split at h; · cases h; exact .inl ⟨_, rfl⟩
    split at h <;> (cases h; exact .inl ⟨_, rfl⟩)
  case rdp =>
    unfold execRdp at h
    split at h; · cases h; exact .inl ⟨_, rfl⟩
    split at h
    · split at h <;> (cases h; exact .inl ⟨_, rfl⟩)
    · (cases h; exact .inl ⟨_, rfl⟩)
  case ksinit =>
    simp only [execKsinit, State.commandKsinit, hb] at h
    cases h; right; left; simp
  case gen32 =>
    simp only [execGen32, State.commandGen, hb] at h
    cases h; right; right; left; simp
  case gen64 =>
    simp only [execGen64, State.commandGen, hb] at h
    cases h; right; right; right; left; simp
  case wr a v =>
    unfold execWr at h
    rw [hb] at h
    split at h; · simp_all
    split at h; · cases h; exact .inl ⟨_, rfl⟩
    split at h
    · subst a
      split at h
      · subst v; cases h; right; left; simp [State.commandKsinit, hb]
      split at h
      · subst v; cases h; right; right; left; simp [State.commandGen, hb]
      split at h
      · subst v; cases h; right; right; right; left; simp [State.commandGen, hb]
      · cases h; exact .inl ⟨_, rfl⟩
    · cases h
      right; right; right; right
      exact ⟨rfl, a, v, rfl, ‹_›, rfl⟩

theorem Engine.setRegister_keeps (e : Engine) (a v : Nat) :
    (e.setRegister a v).wt = e.wt ∧ (e.setRegister a v).err = e.err ∧ (e.setRegister a v).phase = e.phase ∧
      (e.setRegister a v).pbuf = e.pbuf ∧ (e.setRegister a v).xblk = e.xblk
    ∧ (e.setRegister a v).blen = e.blen := by
  unfold Engine.setRegister
  split; · simp
  split <;> simp

/-- A host-port instruction always answers a next state. -/
theorem exec_host_next (i : Instr) (s : State) (hm : i.engineOwn = false) : ∃ t, exec i s = .next t := by
  cases i <;> simp [Instr.engineOwn] at hm <;> simp only [exec]
  case rd => unfold execRd; split; · exact ⟨_, rfl⟩
             split; · exact ⟨_, rfl⟩
             split <;> exact ⟨_, rfl⟩
  case wr =>
    unfold execWr
    split; · exact ⟨_, rfl⟩
    split; · exact ⟨_, rfl⟩
    split
    · split; · exact ⟨_, rfl⟩
      split; · exact ⟨_, rfl⟩
      split <;> exact ⟨_, rfl⟩
    · exact ⟨_, rfl⟩
  case rdp =>
    unfold execRdp
    split; · exact ⟨_, rfl⟩
    split
    · split <;> exact ⟨_, rfl⟩
    · exact ⟨_, rfl⟩
  all_goals exact ⟨_, rfl⟩

/-- What a transaction decodes to comes through the host port. -/
theorem engineOwn_of_transaction {t : Transaction} {i : Instr} (h : decode (.transaction t) = .ok i) : i.engineOwn =
    false := by
  simp only [decode, decodeTransaction] at h
  split at h <;> simp at h <;> subst h <;> try rfl
  unfold decodeWrite
  split
  · have : ∀ w i, decodeCommand w = .ok i → i.engineOwn = false := by
      intro w i h
      unfold decodeCommand at h
      repeat (split at h; · cases h; rfl)
      cases h
    split
    · exact this _ _ ‹_›
    · rfl
  · rfl

/-! ### Which instruction a step runs -/

theorem decode_phase_code (p : Phase) : decode (.phase p.code) = .ok p.instr := by cases p <;> rfl

theorem step_of_engineMoves {s : State} (h : s.engineMoves) : step s = exec s.eng.phase.instr s.advance := by
  rcases h with h | ⟨rest, h⟩ <;> simp [step, State.fetch, h, decode_phase_code]

theorem Engine.busy_iff {e : Engine} : e.busy = true ↔ e.phase ≠ .idle ∧ e.phase ≠ .done := by
  unfold Engine.busy; cases e.phase <;> simp [stateCode]

theorem Engine.argumentsValid_iff {e : Engine} : e.argumentsValid = true ↔ e.loS < e.hiS ∧
    e.count.toNat ≤ Config.maxCount.toNat := by
  simp [Engine.argumentsValid]

end Machine

end Sys2Proof
end

