-- ==== Sys2Proof/Laws/PerInstr.lean ====
section
/-! SUPPORT. Statements made instruction by instruction. `TableRow`: the decoder reads the pattern that
spec/opcode_table.json gives the instruction's row, and the encoder writes it, operands in their own fields
(30_encoding.md R105). -/

namespace Sys2Proof.Laws.TableRow

/-- The pattern of the instruction's row is decoded as the instruction and encoded from it. -/
def Statement (i : Instr) : Prop :=
  match i with
  | .rd reg => decodeTableWord 2 0 = some (.rd 0) ∧
      ∀ seed, ∃ t, encode seed (.rd reg) = .transaction t ∧ t.kind.toNat = 0 ∧ t.reg = reg
  | .wr reg data => decodeTableWord 2 1 = some (.wr 0 0) ∧
      ∀ seed, ∃ t, encode seed (.wr reg data) = .transaction t ∧ t.kind.toNat = 1 ∧ t.reg = reg ∧ t.data = data
  | .rdp addr size => decodeTableWord 2 2 = some (.rdp 0 0) ∧
      ∀ seed, ∃ t, encode seed (.rdp addr size) = .transaction t ∧ t.kind.toNat = 2 ∧ t.addr = addr ∧ t.size = size
  | .ksinit => decodeTableWord 32 0x00000001 = some .ksinit ∧
      ∀ seed, ∃ t, encode seed .ksinit = .transaction t ∧ t.kind.toNat = 1 ∧ t.reg = 11 ∧ t.data = 0x00000001
  | .gen32 => decodeTableWord 32 0x00000002 = some .gen32 ∧
      ∀ seed, ∃ t, encode seed .gen32 = .transaction t ∧ t.kind.toNat = 1 ∧ t.reg = 11 ∧ t.data = 0x00000002
  | .gen64 => decodeTableWord 32 0x00000012 = some .gen64 ∧
      ∀ seed, ∃ t, encode seed .gen64 = .transaction t ∧ t.kind.toNat = 1 ∧ t.reg = 11 ∧ t.data = 0x00000012
  | .idle => decodeTableWord 4 0 = some .idle ∧ ∀ seed, encode seed .idle = .phase 0#4
  | .chk => decodeTableWord 4 1 = some .chk ∧ ∀ seed, encode seed .chk = .phase 1#4
  | .dpri => decodeTableWord 4 2 = some .dpri ∧ ∀ seed, encode seed .dpri = .phase 2#4
  | .dext => decodeTableWord 4 3 = some .dext ∧ ∀ seed, encode seed .dext = .phase 3#4
  | .thr => decodeTableWord 4 4 = some .thr ∧ ∀ seed, encode seed .thr = .phase 4#4
  | .ld => decodeTableWord 4 5 = some .ld ∧ ∀ seed, encode seed .ld = .phase 5#4
  | .tst => decodeTableWord 4 6 = some .tst ∧ ∀ seed, encode seed .tst = .phase 6#4
  | .pull => decodeTableWord 4 7 = some .pull ∧ ∀ seed, encode seed .pull = .phase 7#4
  | .refill => decodeTableWord 4 8 = some .refill ∧ ∀ seed, encode seed .refill = .phase 8#4
  | .red => decodeTableWord 4 9 = some .red ∧ ∀ seed, encode seed .red = .phase 9#4
  | .fin => decodeTableWord 4 10 = some .fin ∧ ∀ seed, encode seed .fin = .phase 10#4
  | .done => decodeTableWord 4 11 = some .done ∧ ∀ seed, encode seed .done = .phase 11#4
  | .derive dst counter length => decodeTableWord 0 0 = some (.derive .pbuf 0 0) ∧
      ∀ seed, ∃ r, encode seed (.derive dst counter length) = .request r ∧ r.dst = dst ∧ r.seed = seed ∧
        r.counter = counter ∧ r.length = length

theorem rd (reg : Nat) : Statement (.rd reg) := ⟨by decide, fun _ => ⟨_, rfl, rfl, rfl⟩⟩

theorem wr (reg data : Nat) : Statement (.wr reg data) := ⟨by decide, fun _ => ⟨_, rfl, rfl, rfl, rfl⟩⟩

theorem rdp (addr size : Nat) : Statement (.rdp addr size) := ⟨by decide, fun _ => ⟨_, rfl, rfl, rfl, rfl⟩⟩

theorem ksinit : Statement .ksinit := ⟨by decide, fun _ => ⟨_, rfl, rfl, rfl, rfl⟩⟩

theorem gen32 : Statement .gen32 := ⟨by decide, fun _ => ⟨_, rfl, rfl, rfl, rfl⟩⟩

theorem gen64 : Statement .gen64 := ⟨by decide, fun _ => ⟨_, rfl, rfl, rfl, rfl⟩⟩

theorem idle : Statement .idle := ⟨by decide, fun _ => rfl⟩

theorem chk : Statement .chk := ⟨by decide, fun _ => rfl⟩

theorem dpri : Statement .dpri := ⟨by decide, fun _ => rfl⟩

theorem dext : Statement .dext := ⟨by decide, fun _ => rfl⟩

theorem thr : Statement .thr := ⟨by decide, fun _ => rfl⟩

theorem ld : Statement .ld := ⟨by decide, fun _ => rfl⟩

theorem tst : Statement .tst := ⟨by decide, fun _ => rfl⟩

theorem pull : Statement .pull := ⟨by decide, fun _ => rfl⟩

theorem refill : Statement .refill := ⟨by decide, fun _ => rfl⟩

theorem red : Statement .red := ⟨by decide, fun _ => rfl⟩

theorem fin : Statement .fin := ⟨by decide, fun _ => rfl⟩

theorem done : Statement .done := ⟨by decide, fun _ => rfl⟩

theorem derive (dst : Buffer) (counter : BitVec Config.counterBits) (length : BitVec 35) :
    Statement (.derive dst counter length) := ⟨by rfl, fun _ => ⟨_, rfl, rfl, rfl, rfl, rfl⟩⟩

end Sys2Proof.Laws.TableRow
end

