-- ==== Sys2Proof/Laws/Scan.lean ====
section
/-! SUPPORT. The scan in the terms of Safety.lean: the operands the invariant gives, the elements of the two
buffers, what carries over between engines with the same arguments. -/

namespace Sys2Proof.Machine

/-! ### Words and numbers -/

theorem ofNat_toNat_of_lt {w n : Nat} (h : n < 2 ^ w) : (BitVec.ofNat w n).toNat = n := by
  rw [BitVec.toNat_ofNat, Nat.mod_eq_of_lt h]

theorem ofNat_inj_of_lt {w a b : Nat} (ha : a < 2 ^ w) (hb : b < 2 ^ w) (h : some (BitVec.ofNat w a) =
    some (BitVec.ofNat w b)) : a = b := by
  have := congrArg BitVec.toNat (Option.some.inj h)
  rwa [ofNat_toNat_of_lt ha, ofNat_toNat_of_lt hb] at this

theorem Engine.rawElem_lt (e : Engine) (i : Nat) : e.rawElem i < 2 ^ e.wt.bits :=
  (streamLE_lt _ _ _).trans_eq e.wt.pow_bytes

theorem Engine.extraElem_lt (e : Engine) (k : Nat) : e.extraElem k < 2 ^ e.wt.bits :=
  (streamLE_lt _ _ _).trans_eq e.wt.pow_bytes

theorem ceilDiv_le (n : Nat) : n ≤ ceilDiv n 64 * 64 := by
  unfold ceilDiv; omega

theorem Engine.toNat_span {e : Engine} (h : e.loS < e.hiS) : (BitVec.ofNat 64 e.span).toNat = e.span := by
  rw [BitVec.toNat_ofNat, Nat.mod_eq_of_lt]
  exact (Engine.span_lt h).trans_le e.wt.two_pow_bits_le

theorem Engine.toNat_threshold {e : Engine} (h : e.loS < e.hiS) : (BitVec.ofNat 64 e.threshold).toNat =
    e.threshold := by
  rw [BitVec.toNat_ofNat, Nat.mod_eq_of_lt]
  exact (Engine.threshold_lt h).trans_le e.wt.two_pow_bits_le

/-- The bytes a little-endian read composes (20_memory.md R66). -/
theorem Memory.readLE_eq_sum (m : Memory) (f : Nat → Byte) (n : Nat) : ∀ a, (∀ j, j < n → Memory.byteAt m (a + j) =
    some (f j)) →
    Memory.readLE m a n = some (∑ j ∈ Finset.range n, (f j).toNat * 256 ^ j) := by
  induction n generalizing f with
  | zero => intro a h; rfl
  | succ n ih =>
    intro a h
    have h0 := h 0 (by omega)
    have := ih (fun j => f (j + 1)) (a + 1) (fun j hj => by
      rw [show a + 1 + j = a + (j + 1) by omega]
      exact h _ (by omega))
    rw [Memory.readLE_succ, this, show a = a + 0 from rfl, h0, Finset.sum_range_succ']
    simp [pow_succ, Finset.mul_sum]
    rw [Nat.add_comm]
    congr 1
    apply Finset.sum_congr rfl
    intros; ring

/-! ### Elements -/

/-- Element `c` of the extra block is that of the stream block it holds. -/
theorem Engine.ExtraAt.elem {e : Engine} {x c : Nat} (h : e.ExtraAt x) (hc : c < e.wt.epb) :
    e.elem .xblk c = some (streamLE e.seed (x * 64 + c * e.wt.bytes) e.wt.bytes) := by
  obtain ⟨m, hm, -⟩ := h.covers
  rw [Engine.elem_xblk hm]
  refine Memory.readLE_stream fun j hj => ?_
  have hb : c * e.wt.bytes + j < 64 := by
    have : (c + 1) * e.wt.bytes ≤ e.wt.epb * e.wt.bytes := Nat.mul_le_mul_right _ hc
    rw [e.wt.epb_mul_bytes] at this
    simp at this
    nlinarith
  have := h.holds _ (by simpa using hb)
  rw [Engine.byteOf_xblk hm] at this
  rw [this]
  simp; congr 1; omega

/-- Writing one element leaves every other as it was. -/
theorem Memory.readLE_writeLE_other (w : Width) (m : Memory) (i j v : Nat) (h : i ≠ j) :
    Memory.readLE (Memory.writeLE m (i * w.bytes) w.bytes v) (j * w.bytes) w.bytes = Memory.readLE m (j * w.bytes)
      w.bytes := by
  refine Memory.readLE_congr fun b h1 h2 => Memory.byteAt_writeLE_outside _ _ _ _ _ ?_
  rcases Nat.lt_or_gt_of_ne h with h | h
  · have := Nat.mul_le_mul_right w.bytes (show i + 1 ≤ j from h)
    rw [Nat.add_mul] at this; omega
  · have := Nat.mul_le_mul_right w.bytes (show j + 1 ≤ i from h)
    rw [Nat.add_mul] at this; omega

theorem State.reduced_eq {s : State} {u : Nat} {ready i x c} (hs : s.eng.ScanAt ready i x c) (hu : s.eng.TestAt i u)
    : s.reduced = s.eng.resultOf u := by
  rw [State.reduced, State.uValue_eq hu.held, State.rangeValue_eq hs.range, Engine.toNat_span hs.checked.order,
    remainder_of_ne_zero (Engine.span_pos hs.checked.order).ne',
    ofNat_toNat_of_lt (hu.small.trans_le s.eng.wt.two_pow_bits_le), Engine.resultOf]

/-! ### What carries over -/

theorem Engine.Checked.mono {r : Bool} {e : Engine} (h : e.Checked r) : e.Checked true := ⟨rfl, h.2, h.3⟩

theorem Engine.ScanAt.mono {r : Bool} {e : Engine} {i x c} (h : e.ScanAt r i x c) : e.ScanAt true i x c :=
    ⟨Engine.Checked.mono h.1, h.2, h.3, h.4, h.5, h.6, h.7, h.8⟩

/-- Two engines with the same arguments and width. -/
structure Engine.SameArgs (e f : Engine) : Prop where
  seed : e.seed = f.seed
  count : e.count = f.count
  lo : e.lo = f.lo
  hi : e.hi = f.hi
  wt : e.wt = f.wt

/-- The closed form depends on the arguments alone. -/
theorem Engine.Scanned.congr {e f : Engine} (h : Engine.SameArgs e f) {i k vs} (hs : e.Scanned i k vs)
    : f.Scanned i k vs := by
  have h1 : e.threshold = f.threshold := by
    simp only [Engine.threshold, Engine.span, Engine.hiS, Engine.loS, Engine.hiU, Engine.loU, h.lo, h.hi, h.wt]
  have h2 : ∀ i, e.rawElem i = f.rawElem i := by intro i; simp only [Engine.rawElem, h.seed, h.wt]
  have h3 : ∀ i, e.extraElem i = f.extraElem i := by intro i; simp only [Engine.extraElem, Engine.blockCount,
    Engine.byteCount, h.seed, h.wt, h.count]
  induction hs with
  | start => exact .start
  | accepted _ ok ih => rw [h2] at *; exact .accepted ih (h1 ▸ ok)
  | replaced n _ r sk ok ih =>
    rw [h1] at *
    rw [h2] at *
    simp only [h3] at *
    exact .replaced n ih r sk ok

/-- The scan of the invariant and that of the closed form are at the same place. -/
theorem Engine.Holds.unique {e : Engine} {r i x c i' x' c' k vs} (hs : e.ScanAt r i x c) (hc : c ≤ e.wt.epb) (hh :
    e.Holds i' x' c' k vs) : i' = i ∧ x' = x ∧ c' = c := by
  have hepb : e.wt.epb ≤ 16 := by cases e.wt <;> decide
  refine ⟨ofNat_inj_of_lt (hh.inside.trans_lt e.count.isLt) (hs.inside.trans_lt e.count.isLt)
    (hh.idx.symm.trans hs.idx),
    ofNat_inj_of_lt hh.fits hs.extra.fits (hh.xctr.symm.trans hs.extra.xctr),
      ofNat_inj_of_lt ?_ ?_ (hh.xcur.symm.trans hs.xcur)⟩
  · have := hh.cursor; omega
  · omega

/-- Which value is under test. -/
theorem Engine.Testing.cases {e : Engine} {i k n u} (h : e.Testing i k n) (hu : e.u = some (BitVec.ofNat 64 u)) (hs :
    u < 2 ^ e.wt.bits) :
   (n = 0 ∧ u = e.rawElem i) ∨ ∃ m, n = m + 1 ∧ u = e.extraElem (k + m) ∧ e.rawElem i < e.threshold ∧ (∀ j, j < m →
     e.extraElem (k + j) < e.threshold) := by
  have h64 := e.wt.two_pow_bits_le
  cases n with
  | zero =>
    left; refine ⟨rfl, ofNat_inj_of_lt (hs.trans_le h64) ((Engine.rawElem_lt e i).trans_le h64) (hu.symm.trans h)⟩
  | succ m =>
    right
    refine ⟨m, rfl, ofNat_inj_of_lt (hs.trans_le h64) ?_ (hu.symm.trans h.2.2), h.1, h.2.1⟩
    exact ((streamLE_lt _ _ _).trans_eq e.wt.pow_bytes).trans_le h64

end Sys2Proof.Machine
end

