-- ==== Sys2Proof/Tests/Slice0.lean ====
section
/-! SUPPORT. Small tests, each on one step of a small state, with expected results from 95_test_vectors.md or from
the encoding tables; and for every statement that has hypotheses a witness that meets them. -/

namespace Sys2Proof.Tests

open Sys2Proof.Machine

/-! ### Helpers -/

/-- An engine with its arguments, width and phase, and nothing else. -/
def engine (p : Phase) (w : Width) (count : BitVec 32) (lo hi : BitVec 64) : Engine :=
  { Engine.reset with phase := p, wt := w, count := count, lo := lo, hi := hi }

/-- A machine with that one engine, initialised or not. -/
def machine (ready : Bool) (e : Engine) : State := { State.reset with eng := e, peers := [], ksReady := ready }

/-- Cells at consecutive addresses. -/
def cells (a : Nat) : List Byte → Memory
  | [] => []
  | b :: bs => (a, b) :: cells (a + 1) bs

/-- What a step leaves, if it leaves anything. -/
def after {α : Type} (r : Result) (f : State → α) : Option α :=
  match r with
  | .next t => some (f t)
  | _ => none

/-- The response of a transaction, if it gives one. -/
def reply (r : Result) : Option Reply :=
  match r with
  | .next t => t.replies.head?
  | _ => none

/-! ### Well-formedness: an ill-formed term for each check -/

theorem test_wf_wr_not_a_command : (Instr.wr 11 0x12).wf = false ∧ (Instr.wr 11 0x11).wf = true := by decide
theorem test_wf_derive_not_empty : (Instr.derive .pbuf 0 0).wf = false ∧ (Instr.derive .pbuf 0 1).wf = true := by
  decide
theorem test_wf_derive_fits_xblk : (Instr.derive .xblk 2 65).wf = false ∧ (Instr.derive .xblk 2 64).wf = true := by
  decide

/-! ### Decoding, from words written out bit by bit -/

/-- 30_encoding.md R106: kind 00 RD, 01 WR, 10 RDP, 11 reserved. -/
theorem test_decode_transactions :
    decode (.transaction ⟨0b00#2, 13, 0, 0, 0⟩) = .ok (.rd 13) ∧
    decode (.transaction ⟨0b01#2, 9, 0, 0, 7⟩) = .ok (.wr 9 7) ∧
    decode (.transaction ⟨0b10#2, 0, 24, 8, 0⟩) = .ok (.rdp 24 8) ∧
    decode (.transaction ⟨0b11#2, 9, 0, 0, 7⟩) = .error .reservedKind := by decide

/-- 30_encoding.md R92: OP in bits 3:0, WT in bit 4, bits 31:5 zero. -/
theorem test_decode_commands :
    decode (.command 0b00000000000000000000000000000001#32) = .ok .ksinit ∧
    decode (.command 0b00000000000000000000000000000010#32) = .ok .gen32 ∧
    decode (.command 0b00000000000000000000000000010010#32) = .ok .gen64 := by decide

/-- 30_encoding.md R94: the all-zero word, KSINIT with WT = 1, and a reserved bit set. -/
theorem test_decode_illegal_commands :
    decode (.command 0#32) = .error (.illegalCommand 0) ∧
    decode (.command 0x00000011#32) = .error (.illegalCommand 0x11) ∧
    decode (.command 0x80000002#32) = .error (.illegalCommand 0x80000002) := by decide

/-- 30_encoding.md R95: the twelve phase codes. -/
theorem test_decode_phases :
    decode (.phase 0b0000#4) = .ok .idle ∧ decode (.phase 0b0001#4) = .ok .chk ∧
    decode (.phase 0b0010#4) = .ok .dpri ∧ decode (.phase 0b0011#4) = .ok .dext ∧
    decode (.phase 0b0100#4) = .ok .thr ∧ decode (.phase 0b0101#4) = .ok .ld ∧
    decode (.phase 0b0110#4) = .ok .tst ∧ decode (.phase 0b0111#4) = .ok .pull ∧
    decode (.phase 0b1000#4) = .ok .refill ∧ decode (.phase 0b1001#4) = .ok .red ∧
    decode (.phase 0b1010#4) = .ok .fin ∧ decode (.phase 0b1011#4) = .ok .done := by decide

/-- 30_encoding.md R96: codes 12 to 15 are reserved. -/
theorem test_decode_reserved_phases :
    decode (.phase 0b1100#4) = .error (.reservedPhase 12) ∧
    decode (.phase 0b1111#4) = .error (.reservedPhase 15) := by decide

/-- 30_encoding.md R97: the request of DEXT when PBC is 1. -/
theorem test_decode_request :
    decode (.request ⟨.xblk, Vector.replicate 8 0, Config.nonce, 2, 64⟩) = .ok (.derive .xblk 2 64) := rfl

/-- 95 P1 line 14: a write of 0x2 to CMD is GEN.32; P4 line 10: a write of 0 to CMD is a write. -/
theorem test_decode_write_of_command :
    decode (.transaction ⟨1#2, 11, 0, 0, 0x00000002⟩) = .ok .gen32 ∧
    decode (.transaction ⟨1#2, 11, 0, 0, 0⟩) = .ok (.wr 11 0) ∧
    decode (.transaction ⟨1#2, 11, 0, 0, 0x100000002⟩) = .ok (.wr 11 0x100000002) := by decide

theorem test_table_words :
    decodeTableWord 32 0x12 = some .gen64 ∧ decodeTableWord 8 0x8 = some .refill ∧ decodeTableWord 4 0xC = none ∧
    decodeTableWord 2 2 = some (.rdp 0 0) := by decide

theorem test_fetch_word_runs :
    after (step (State.reset.withFetchWord 32 2)) (fun t => (t.eng.phase, t.replies)) =
      some (.chk, [⟨.ack, none⟩]) ∧
    after (step (State.reset.withFetchWord 8 10)) (fun t => t.eng.phase) = some .done := by decide

/-! ### Host port (95 section 2.6) -/

theorem test_rd_status_after_reset : reply (exec (.rd 12) State.reset) = some ⟨.ack, some 0⟩ := by decide

/-- 95 P3 end state: STATUS is 0x000010B6 in DONE at 64 bits, initialised. -/
theorem test_rd_status_done :
    reply (exec (.rd 12) (machine true (engine .done .w64 2 0 1000))) = some ⟨.ack, some 0x000010B6⟩ := by decide

/-- HV3, HV4, HV5. -/
theorem test_rd_refused :
    reply (exec (.rd 13) State.reset) = some ⟨.nakAccess, none⟩ ∧
    reply (exec (.rd 11) State.reset) = some ⟨.nakAccess, none⟩ ∧
    reply (exec (.rd 21) State.reset) = some ⟨.nakAccess, none⟩ := by decide

/-- HV6. -/
theorem test_wr_count :
    after (exec (.wr 8 5) State.reset) (fun t => (t.eng.count, t.replies)) = some (5, [⟨.ack, none⟩]) := by decide

/-- HV7, HV8, HV9, HV10. -/
theorem test_wr_refused :
    reply (exec (.wr 8 0x100000000) State.reset) = some ⟨.nakAccess, none⟩ ∧
    reply (exec (.wr 12 0) State.reset) = some ⟨.nakAccess, none⟩ ∧
    reply (exec (.wr 15 0) State.reset) = some ⟨.nakAccess, none⟩ ∧
    reply (exec (.wr 11 0) State.reset) = some ⟨.nakIllegal, none⟩ := by decide

/-- A finished 64-bit call: the bytes of 95 P3. -/
def finished : State :=
  machine true
    { engine .done .w64 1 0 1000 with
      blen := some 8, pbc := some 1, xctr := some 3, xcur := some 2, range := some 1000, min := some 616,
      idx := some 1, u := some 0xFFFFFFFFFFFFFFFF, pbuf := some (cells 0 [0x67, 2, 0, 0, 0, 0, 0, 0]) }

/-- 95 P3 lines 6 and 8; 20_memory.md R79: a narrower read sees the same bytes. -/
theorem test_rdp :
    reply (exec (.rdp 0 8) finished) = some ⟨.ack, some 615⟩ ∧
    reply (exec (.rdp 0 1) finished) = some ⟨.ack, some 0x67⟩ ∧
    reply (exec (.rdp 8 8) finished) = some ⟨.nakAccess, none⟩ := by decide

theorem test_rdp_refused :
    reply (exec (.rdp 2 4) finished) = some ⟨.nakAccess, none⟩ ∧
    reply (exec (.rdp 0 3) finished) = some ⟨.nakAccess, none⟩ ∧
    reply (exec (.rdp 0 4) State.reset) = some ⟨.nakAccess, none⟩ := by decide

/-! ### Commands -/

/-- KSINIT keeps a flag that is set, whatever the draw. -/
theorem test_ksinit_keeps :
    after (exec .ksinit (machine true Engine.reset)) (fun t => (t.ksReady, t.replies)) =
      some (true, [⟨.ack, none⟩]) := by decide

theorem test_gen32 :
    after (exec .gen32 { finished with eng := { finished.eng with err := .none } })
      (fun t => (t.eng.phase, t.eng.wt, t.eng.blen, t.eng.pbuf.isSome)) =
      some (.chk, .w32, none, false) := by decide

/-- 43_host_interface.md R195: GEN clears ERR. -/
theorem test_gen64 :
    after (exec .gen64 (machine true { Engine.reset with err := .validation })) (fun t =>
      (t.eng.phase, t.eng.wt, t.eng.err)) = some (.chk, .w64, .none) := by decide

/-! ### CHK (95 section 2.2) -/

/-- CV3: the empty call. -/
theorem test_chk_empty_call :
    after (exec .chk (machine true (engine .chk .w32 0 0 10))) (fun t =>
      (t.eng.phase, t.eng.blen, t.eng.pbuf.map List.length)) = some (.done, some 0, some 0) := by decide

/-- CV4, CV7, CV10, CV11, CV14: the order of the errors, and the widths of the comparison. -/
theorem test_chk_errors :
    after (exec .chk (machine false (engine .chk .w32 0 0 10))) (fun t => t.eng.err) = some .initialization ∧
    after (exec .chk (machine false (engine .chk .w32 5 10 10))) (fun t => t.eng.err) = some .validation ∧
    after (exec .chk (machine true (engine .chk .w64 1 0xFFFFFFFF 0))) (fun t => t.eng.err) = some .validation ∧
    after (exec .chk (machine true (engine .chk .w32 1 0x100000000 0x200000000))) (fun t => t.eng.err) =
      some .validation ∧
    after (exec .chk (machine true (engine .chk .w32 1 0x7FFFFFFF 0x80000000))) (fun t => t.eng.err) =
      some .validation := by decide

/-! ### DPRI, DEXT, THR, DERIVE (95 sections 2.1, 2.3, 2.4) -/

/-- PV1: one 32-bit element. -/
theorem test_dpri :
    after (exec .dpri (machine true (engine .dpri .w32 1 0 10))) (fun t =>
      (t.eng.phase, t.eng.blen, t.eng.byteOf .pbuf 3, t.eng.byteOf .pbuf 4)) =
    some (.dext, some 4, some (Config.stream (Vector.replicate 8 0) Config.nonce 3), none) := rfl

/-- PV4: 17 elements of 4 bytes reach into block 1, so the extra block is block 3. -/
theorem test_dext :
    after (exec .dext (machine true { engine .dext .w32 17 0 10 with blen := some 68 })) (fun t =>
      (t.eng.phase, t.eng.pbc, t.eng.xctr, t.eng.xcur, t.eng.byteOf .xblk 0, t.eng.byteOf .xblk 64)) =
    some (.thr, some 2, some 3, some 0, some (Config.stream (Vector.replicate 8 0) Config.nonce 192), none) := rfl

/-- TV9: -2^30 to 2^30 + 1, the largest threshold. -/
theorem test_thr_32 :
    after (exec .thr (machine true (engine .thr .w32 1 0xC0000000 0x40000001))) (fun t =>
      (t.eng.range, t.eng.min, t.eng.idx, t.eng.phase)) =
    some (some 0x80000001, some 0x7FFFFFFF, some 0, .ld) := by decide

/-- TV13: -3 to 4 at 64 bits. -/
theorem test_thr_64 :
    after (exec .thr (machine true (engine .thr .w64 1 0xFFFFFFFFFFFFFFFD 4))) (fun t => (t.eng.range, t.eng.min)) =
    some (some 7, some 2) := by decide

/-- 40_keystream_source.md R121: two bytes over a buffer of three; the third is left. -/
theorem test_derive :
    after (exec (.derive .pbuf 0 2) (machine true { Engine.reset with pbuf := some (cells 0 [1, 2, 3]) })) (fun t =>
      (t.eng.byteOf .pbuf 1, t.eng.byteOf .pbuf 2)) =
    some (some (Config.stream (Vector.replicate 8 0) Config.nonce 1), some 3) := rfl

/-- DV8, DV10. -/
theorem test_derive_errors :
    after (exec (.derive .xblk 2 64) State.reset) (fun t => (t.eng.err, t.eng.xblk)) =
      some (.initialization, none) ∧
    after (exec (.derive .xblk 0xFFFFFFFFFFFFFFFF 65) (machine true Engine.reset)) (fun t => t.eng.err) =
      some .counterExhausted := by decide

/-! ### The scan (95 section 2.5) -/

/-- LV1: element 2 of five. -/
theorem test_ld :
    after (exec .ld (machine true
      { engine .ld .w32 5 0 10 with idx := some 2, pbuf := some (cells 8 [0x08, 0x09, 0x0A, 0x0B]) }))
      (fun t => (t.eng.u, t.eng.phase)) = some (some 0x0B0A0908, .tst) := by decide

/-- LV2: the end of the scan. -/
theorem test_ld_end :
    after (exec .ld (machine true { engine .ld .w32 5 0 10 with idx := some 5, u := some 9 }))
      (fun t => (t.eng.u, t.eng.phase)) = some (some 9, .fin) := by decide

/-- SV1, SV2, SV4: the test is strict and unsigned. -/
theorem test_tst :
    after (exec .tst (machine true { engine .tst .w32 5 0 10 with u := some 5, min := some 6 }))
      (fun t => t.eng.phase) = some .pull ∧
    after (exec .tst (machine true { engine .tst .w32 5 0 10 with u := some 6, min := some 6 }))
      (fun t => t.eng.phase) = some .red ∧
    after (exec .tst (machine true { engine .tst .w32 5 0 10 with u := some 0x80000000, min := some 0x40000000 }))
      (fun t => t.eng.phase) = some .red := by decide

/-- UV2: element 14 of 16. -/
theorem test_pull :
    after (exec .pull (machine true
      { engine .pull .w32 5 0 10 with xcur := some 14, xblk := some (cells 56 [6, 0, 0, 0, 11, 0, 0, 0]) }))
      (fun t => (t.eng.u, t.eng.xcur, t.eng.phase)) = some (some 6, some 15, .tst) := by decide

/-- UV3: the last element; the refill follows at once. -/
theorem test_pull_last :
    after (exec .pull (machine true
      { engine .pull .w32 5 0 10 with xcur := some 15, xblk := some (cells 56 [6, 0, 0, 0, 11, 0, 0, 0]) }))
      (fun t => (t.eng.u, t.eng.xcur, t.eng.phase)) = some (some 11, some 16, .refill) := by decide

/-- FV1, FV2: the next counter, and the last one. -/
theorem test_refill :
    after (exec .refill (machine true { engine .refill .w32 5 0 10 with xctr := some 2, xcur := some 16, u := some 0 }))
      (fun t => (t.eng.xctr, t.eng.xcur, t.eng.u, t.eng.phase, t.eng.byteOf .xblk 63)) =
    some (some 3, some 0, some 0, .tst, some (Config.stream (Vector.replicate 8 0) Config.nonce 255)) := rfl

/-- FV3. -/
theorem test_refill_exhausted :
    after (exec .refill (machine true
      { engine .refill .w32 5 0 10 with xctr := some 0xFFFFFFFFFFFFFFFF, xcur := some 16, u := some 0 }))
      (fun t => (t.eng.err, t.eng.phase, t.eng.xctr, t.eng.xcur)) =
    some (.counterExhausted, .idle, some 0xFFFFFFFFFFFFFFFF, some 16) := by decide

/-- RV3: -100 + 14 mod 10 is -96; the byte after the element is left. -/
theorem test_red_32 :
    after (exec .red (machine true
      { engine .red .w32 5 (BitVec.ofInt 64 (-100)) (BitVec.ofInt 64 (-90)) with
        idx := some 0, range := some 10, u := some 14, pbuf := some (cells 0 [1, 2, 3, 4, 5]) }))
      (fun t => (t.eng.pbuf, t.eng.idx, t.eng.phase)) =
    some (some (cells 0 [0xA0, 0xFF, 0xFF, 0xFF, 5]), some 1, .ld) := by decide

/-- RV8: at 64 bits, -3 + 9 mod 7 is -1. -/
theorem test_red_64 :
    after (exec .red (machine true
      { engine .red .w64 5 (BitVec.ofInt 64 (-3)) 4 with
        idx := some 0, range := some 7, u := some 9, pbuf := some (cells 0 [1, 2, 3, 4, 5, 6, 7, 8]) }))
      (fun t => t.eng.elem .pbuf 0) = some (some 0xFFFFFFFFFFFFFFFF) := by decide

/-- NV1. -/
theorem test_fin :
    after (exec .fin (machine true { engine .fin .w32 1 0 1 with xblk := some [], u := some 3 }))
      (fun t => (t.eng.xblk, t.eng.phase, t.eng.u)) = some (none, .done, some 3) := by decide

theorem test_idle : after (step State.reset) (fun t => t.eng) = some Engine.reset := by decide

theorem test_done : after (step finished) (fun t => t.eng) = some finished.eng := by decide

/-- 70_reset_and_hazards.md R250, and the change of focus: the engine that was in focus takes the other's place. -/
theorem test_events :
    after (step { finished with agenda := [.reset] }) (fun t => (t.eng, t.ksReady)) = some (Engine.reset, false) ∧
    after (step { finished with agenda := [.select 0], peers := [Engine.reset] }) (fun t => (t.eng, t.peers)) =
      some (Engine.reset, [finished.eng]) := by decide

/-! ### Witnesses: reset, fetching, decoding -/

theorem witness_reset_event : ({ finished with agenda := [.reset, .engine] } : State).agenda = .reset :: [.engine] := rfl

theorem witness_step_host : decode (.transaction ⟨0#2, 12, 0, 0, 0⟩) = .ok (.rd 12) ∧
    ({ finished with agenda := [.host ⟨0#2, 12, 0, 0, 0⟩] } : State).agenda = .host ⟨0#2, 12, 0, 0, 0⟩ :: [] := by
  decide

theorem witness_step_engine : decode (.phase Engine.reset.phase.code) = .ok .idle ∧ State.reset.agenda = [] ∧
    decode (.phase (engine .red .w32 1 0 1).phase.code) = .ok .red ∧
    ({ State.reset with agenda := [.engine], eng := engine .red .w32 1 0 1 } : State).agenda = .engine :: [] := by
  decide

theorem witness_reserved_kind : (⟨3#2, 8, 0, 0, 1⟩ : Transaction).kind = 3#2 ∧
    ({ State.reset with agenda := [.host ⟨3#2, 8, 0, 0, 1⟩] } : State).agenda = .host ⟨3#2, 8, 0, 0, 1⟩ :: [] := by
  decide

theorem witness_decode_inverts : (Instr.derive .xblk 2 64).wf = true ∧ (Instr.wr 11 0x12).wf = false ∧
    (Instr.wr 11 0x13).wf = true ∧ decode (.transaction ⟨1#2, 11, 0, 0, 0x12⟩) = .ok .gen64 := by decide

theorem witness_encodings_equal (seed : Config.Seed) : Instr.ld.wf = true ∧ encode seed .ld = encode seed .ld :=
  ⟨rfl, rfl⟩

/-! ### Witnesses: the host port -/

/-- A busy engine. -/
def busyState : State := machine true (engine .chk .w32 1 0 10)

theorem witness_status : State.reset.eng.busy = false ∧ busyState.eng.busy = true := by decide

theorem witness_read : finished.eng.busy = false ∧ finished.eng.blen = some 8 ∧ finished.eng.pbc = some 1 ∧
    finished.eng.xctr = some 3 ∧ finished.eng.xcur = some 2 ∧ finished.eng.range = some 1000 ∧
    finished.eng.min = some 616 ∧ finished.eng.idx = some 1 ∧ finished.eng.u = some 0xFFFFFFFFFFFFFFFF := by decide

theorem witness_read_refused : busyState.eng.busy = true ∧ State.reset.eng.busy = false ∧ 20 < 21 ∧
    State.reset.eng.blen = none ∧ State.reset.eng.pbc = none ∧ State.reset.eng.xctr = none ∧
    State.reset.eng.xcur = none ∧ State.reset.eng.range = none ∧ State.reset.eng.min = none ∧
    State.reset.eng.idx = none ∧ State.reset.eng.u = none := by decide

/-- The largest values that fit, at the first and last argument register. -/
theorem witness_write : State.reset.eng.busy = false ∧ 7 < 8 ∧ 0xFFFFFFFF < 2 ^ 32 ∧ 0xFFFFFFFFFFFFFFFF < 2 ^ 64 := by
  decide

/-- The smallest values that do not fit, the smallest number that is not writable, a word that is no command. -/
theorem witness_write_refused : busyState.eng.busy = true ∧ State.reset.eng.busy = false ∧ 11 < 12 ∧
    2 ^ 32 ≤ 0x100000000 ∧ 2 ^ 64 ≤ 0x10000000000000000 ∧ 0x11 < 2 ^ 32 ∧ 0x11 ≠ 0x1 ∧ 0x11 ≠ 0x2 ∧ 0x11 ≠ 0x12 := by
  decide

/-- The whole of an 8-byte result, up to BLEN. -/
theorem witness_read_out : finished.eng.phase = .done ∧ finished.eng.blen = some 8 ∧ 8 ∈ [1, 2, 4, 8] ∧ 0 % 8 = 0 ∧
    0 + 8 ≤ (8#35).toNat ∧ (∀ j, j < 8 → finished.eng.byteOf .pbuf (0 + j) = some ([0x67, 2, 0, 0, 0, 0, 0, 0][j]!)) := by
  decide

theorem witness_read_out_refused : busyState.eng.busy = true ∧ finished.eng.busy = false ∧
    State.reset.eng.busy = false ∧ State.reset.eng.phase ≠ .done ∧ 3 ∉ [1, 2, 4, 8] ∧ 2 % 4 ≠ 0 ∧
    finished.eng.blen = some 8 ∧ (8#35).toNat < 8 + 1 := by decide

theorem witness_rest : State.reset.engineMoves ∧ State.reset.eng.phase = .idle ∧ finished.engineMoves ∧
    finished.eng.phase = .done := ⟨.inl rfl, rfl, .inl rfl, rfl⟩

/-! ### Witnesses: set-up -/

/-- CHK passes on a call of `MAX_COUNT` elements, the largest there is, and on the empty call. What `MAX_COUNT` is,
and so whether a call of one element passes, is open (00_scope.md R9). -/
theorem witness_chk : (engine .chk .w32 Config.maxCount 0 10).loS < (engine .chk .w32 Config.maxCount 0 10).hiS ∧
    (engine .chk .w32 Config.maxCount 0 10).count.toNat ≤ Config.maxCount.toNat ∧
    (engine .chk .w32 0 0 10).loS < (engine .chk .w32 0 0 10).hiS ∧
    (engine .chk .w32 0 0 10).count.toNat ≤ Config.maxCount.toNat ∧
    (machine true (engine .chk .w32 0 0 10)).ksReady = true ∧ (machine false (engine .chk .w32 0 0 10)).ksReady = false :=
  ⟨show toS 32 0 < toS 32 10 by decide, le_refl _, by decide, Nat.zero_le _, rfl, rfl⟩

theorem witness_chk_raises : (engine .chk .w32 5 10 10).hiS ≤ (engine .chk .w32 5 10 10).loS := by decide

/-- CV15: where the buffer is smaller than the counter allows, one element more than it holds. -/
theorem witness_chk_capacity (h : Config.maxCount.toNat < 2 ^ 32 - 1) :
    Config.maxCount.toNat < (engine .chk .w32 (BitVec.ofNat 32 (Config.maxCount.toNat + 1)) 0 10).count.toNat := by
  change _ < (BitVec.ofNat 32 (Config.maxCount.toNat + 1)).toNat
  rw [BitVec.toNat_ofNat]; omega

theorem witness_dpri : busyState.ksReady = true := rfl

theorem witness_dext : (machine true { engine .dext .w32 5 0 10 with blen := some 20 }).ksReady = true ∧
    (machine true { engine .dext .w32 5 0 10 with blen := some 20 }).eng.blen = some 20 := by decide

/-- The widest legal range at 32 bits (TV11). -/
theorem witness_thr : (engine .thr .w32 1 0x80000000 0x7FFFFFFF).loS < (engine .thr .w32 1 0x80000000 0x7FFFFFFF).hiS := by
  decide

theorem witness_thr_next : ∃ t, exec .thr (machine true (engine .thr .w32 1 0x80000000 0x7FFFFFFF)) = .next t :=
  ⟨_, rfl⟩

/-! ### Witnesses: the scan, one step -/

/-- A state in which every working register holds a value and both buffers hold bytes. -/
def scanning : State :=
  machine true
    { engine .ld .w32 2 0 3 with
      blen := some 8, pbc := some 1, xctr := some 2, xcur := some 15, range := some 3, min := some 1, idx := some 1,
      u := some 0, pbuf := some (cells 0 [9, 0, 0, 0, 7, 0, 0, 0]), xblk := some (cells 60 [5, 0, 0, 0]) }

theorem witness_ld : scanning.eng.idx = some 1 ∧ (1 : BitVec 32) ≠ scanning.eng.count ∧
    Engine.readBuffer scanning.eng .pbuf ((1 : BitVec 32).toNat * scanning.eng.wt.bytes) scanning.eng.wt.bytes =
      some 7 := by decide

theorem witness_ld_end : ({ scanning.eng with idx := some 2 } : Engine).idx = some 2 ∧
    (2 : BitVec 32) = scanning.eng.count := by decide

theorem witness_tst : scanning.eng.u = some 0 ∧ scanning.eng.min = some 1 := by decide

theorem witness_pull : scanning.eng.xcur = some 15 ∧ (15 : BitVec 5).toNat < scanning.eng.wt.epb ∧
    Engine.readBuffer scanning.eng .xblk ((15 : BitVec 5).toNat * scanning.eng.wt.bytes) scanning.eng.wt.bytes =
      some 5 := by decide

theorem witness_refill : scanning.ksReady = true ∧ scanning.eng.xctr = some 2 ∧ (2 : BitVec 64).toNat ≠ 2 ^ 64 - 1 := by
  decide

theorem witness_refill_top :
    ({ scanning.eng with xctr := some 0xFFFFFFFFFFFFFFFF } : Engine).xctr = some 0xFFFFFFFFFFFFFFFF ∧
    (0xFFFFFFFFFFFFFFFF : BitVec 64).toNat = 2 ^ 64 - 1 := by decide

theorem witness_red : scanning.eng.idx = some 1 ∧ scanning.eng.u = some 0 ∧ scanning.eng.range = some 3 ∧
    (3 : BitVec 64).toNat ≠ 0 ∧
    (∀ j, j < scanning.eng.wt.bytes →
      (scanning.eng.byteOf .pbuf ((1 : BitVec 32).toNat * scanning.eng.wt.bytes + j)).isSome = true) := by decide

theorem witness_reduction : scanning.eng.loS < scanning.eng.hiS ∧ scanning.eng.u = some 0 ∧
    scanning.eng.range = some 3 ∧ ((3 : BitVec 64).toNat : Int) = scanning.eng.hiS - scanning.eng.loS := by decide

/-- The last bytes of the stream (DV9), into either buffer. -/
theorem witness_derive : scanning.ksReady = true ∧
    (0xFFFFFFFFFFFFFFFF : BitVec 64).toNat * 64 + (64 : BitVec 35).toNat ≤ 2 ^ 64 * 64 ∧
    (64 : BitVec 35).toNat ≤ 64 := by decide

theorem witness_derive_too_long : scanning.ksReady = true ∧
    (0 : BitVec 64).toNat * 64 + (65 : BitVec 35).toNat ≤ 2 ^ 64 * 64 ∧ 64 < (65 : BitVec 35).toNat := by decide

theorem witness_derive_raises : State.reset.ksReady = false ∧ scanning.ksReady = true ∧
    2 ^ 64 * 64 < (0xFFFFFFFFFFFFFFFF : BitVec 64).toNat * 64 + (65 : BitVec 35).toNat := by decide

/-- An element whose last byte is missing, in each of the three accesses. -/
theorem witness_absent_byte :
    Engine.readBuffer { scanning.eng with pbuf := some (cells 4 [7, 0, 0]) } .pbuf ((1 : BitVec 32).toNat * 4) 4 = none ∧
    Engine.readBuffer { scanning.eng with xblk := some (cells 60 [7, 0, 0]) } .xblk ((15 : BitVec 5).toNat * 4) 4 = none ∧
    scanning.eng.wt.bytes = 4 ∧ scanning.eng.idx = some 1 ∧ (1 : BitVec 32) ≠ scanning.eng.count ∧
    scanning.eng.xcur = some 15 := by decide

/-! ### Witnesses: rules over all instructions -/

theorem witness_busy_steps : scanning.eng.busy = true ∧ (∃ t, exec .ld scanning = .next t) ∧
    ∃ t, exec (.wr 8 5) scanning = .next t := ⟨by decide, ⟨_, rfl⟩, ⟨_, rfl⟩⟩

theorem witness_ksready : (∃ t, exec .ksinit State.reset = .next t) ∧ ∃ t, exec .ksinit finished = .next t :=
  ⟨⟨_, rfl⟩, ⟨_, rfl⟩⟩

/-- KSINIT takes the flag up on a draw that is true. -/
theorem witness_ksready_rises (h : Config.initOk 0 = true) :
    after (exec .ksinit State.reset) (fun t => t.ksReady) = some true := by
  simp [exec, execKsinit, State.commandKsinit, State.reset, Engine.reset, Engine.busy, stateCode, State.ack,
    State.respond, after, h]

theorem witness_error_enters : ∃ t, exec .dpri State.reset = .next t ∧ t.eng.err ≠ State.reset.eng.err ∧
    t.eng.err ≠ .none := ⟨_, rfl, by decide, by decide⟩

theorem witness_error_clears : (machine true { Engine.reset with err := .validation }).eng.err ≠ .none ∧
    ∃ t, exec .gen32 (machine true { Engine.reset with err := .validation }) = .next t ∧ t.eng.err = .none :=
  ⟨by decide, _, rfl, rfl⟩

theorem witness_width : ∃ t, exec (.wr 11 0x12) State.reset = .next t ∧ t.eng.wt ≠ State.reset.eng.wt :=
  ⟨_, rfl, by decide⟩

theorem witness_store_nothing : (∃ t, exec .pull scanning = .next t) ∧ (∃ t, exec .ld scanning = .next t) ∧
    ∃ t, exec (.wr 8 5) finished = .next t := ⟨⟨_, rfl⟩, ⟨_, rfl⟩, ⟨_, rfl⟩⟩

theorem witness_peers : (∃ t, step { scanning with peers := [finished.eng] } = .next t) ∧ scanning.agenda = [] :=
  ⟨⟨_, rfl⟩, rfl⟩

theorem witness_canonical : (∀ b m, scanning.eng.buffer b = some m → Memory.wf m) ∧
    ∃ t, exec .red scanning = .next t := by
  refine ⟨fun b m h => ?_, _, rfl⟩
  cases b <;> simp [scanning, machine, Engine.buffer] at h <;> subst h <;> simp [cells, Memory.wf]

/-- 60_exceptions.md R235: with `NUM_ENGINES = 2` a second engine leaves reset beside the first. -/
theorem test_two_engines (h : Config.otherEngines = 1) : State.reset.peers = [Engine.reset] := by
  simp [State.reset, h]

/-! ### Witnesses: the invariant -/

/-- CHK answers a next state whatever `MAX_COUNT` is. -/
theorem exec_chk_next (s : State) : ∃ t, exec .chk s = .next t := by
  simp only [exec, execChk]
  split
  · exact ⟨_, rfl⟩
  split
  · exact ⟨_, rfl⟩
  split <;> exact ⟨_, rfl⟩

/-- The seed after reset. -/
def zeroSeed : Config.Seed := Vector.replicate 8 0

/-- An engine at the start of the scan of one element, range `[0, 3)`, threshold 1, with any stream. -/
def scanEngine (p : Phase) (c : BitVec 5) (u : Option (BitVec 64)) : Engine :=
  { engine p .w32 1 0 3 with
    blen := some 4, pbc := some 1, xctr := some 2, xcur := some c, range := some 3, min := some 1, idx := some 0,
    u := u, pbuf := some (Memory.fill [] 4 (Config.stream zeroSeed Config.nonce)),
    xblk := some (Memory.fill [] 64 fun b => Config.stream zeroSeed Config.nonce (128 + b)) }

theorem scanEngine_threshold (p : Phase) (c : BitVec 5) (u : Option (BitVec 64)) :
    (scanEngine p c u).threshold = 1 := by
  change 2 ^ 32 % (toS 32 3 - toS 32 0).toNat = 1
  decide

theorem scanEngine_blockCount (p : Phase) (c : BitVec 5) (u : Option (BitVec 64)) :
    (scanEngine p c u).blockCount = 1 := by
  change ceilDiv 4 64 = 1
  decide

theorem scanEngine_scanAt (p : Phase) (c : BitVec 5) (u : Option (BitVec 64)) :
    (scanEngine p c u).ScanAt true 0 2 c.toNat where
  checked := ⟨rfl, by change toS 32 0 < toS 32 3; decide, by change 0 < 1; decide⟩
  primary :=
    { blen := rfl
      covers := ⟨_, rfl, Memory.covers_fill 4 _⟩
      final := fun j hj => by omega
      raw := fun j _ hj => by
        have h : j = 0 := by change j < 1 at hj; omega
        subst h; rfl }
  extra :=
    { pbc := by rw [scanEngine_blockCount]; rfl
      xctr := rfl
      fits := by decide
      beyond := by change ceilDiv 4 64 + 1 ≤ 2; decide
      covers := ⟨_, rfl, Memory.covers_fill 64 _⟩
      holds := fun b hb => by
        rw [Engine.byteOf_xblk rfl, Memory.byteAt_fill, if_pos hb]
        rfl }
  range := rfl
  min := by rw [scanEngine_threshold]; rfl
  idx := rfl
  xcur := by simp [scanEngine]
  inside := Nat.zero_le _

/-- An engine at the end of the scan of one element, range `[0, 1)`: the result is 0. -/
def finEngine : Engine :=
  { scanEngine .fin 0 (some (BitVec.ofNat 64 (streamLE zeroSeed 0 4))) with
    hi := 1, range := some 1, min := some 0, idx := some 1, pbuf := some (cells 0 [0, 0, 0, 0]) }

theorem finEngine_scanAt : finEngine.ScanAt true 1 2 0 where
  checked := ⟨rfl, by change toS 32 0 < toS 32 1; decide, by change 0 < 1; decide⟩
  primary :=
    { blen := rfl
      covers := ⟨_, rfl, by simp [cells, Memory.wf], fun a => by
        change _ ↔ a < 4
        simp only [cells, Memory.byteAt]
        grind⟩
      final := fun j hj _ => by
        have h : j = 0 := by omega
        subst h; exact ⟨0, rfl, by change toS 32 0 ≤ toS 32 0 ∧ toS 32 0 < toS 32 1; decide⟩
      raw := fun j h₁ h₂ => by change j < 1 at h₂; omega }
  extra :=
    { pbc := by rw [show finEngine.blockCount = 1 from (by change ceilDiv 4 64 = 1; decide)]; rfl
      xctr := rfl
      fits := by decide
      beyond := by change ceilDiv 4 64 + 1 ≤ 2; decide
      covers := ⟨_, rfl, Memory.covers_fill 64 _⟩
      holds := (scanEngine_scanAt .fin 0 none).extra.holds }
  range := rfl
  min := rfl
  idx := rfl
  xcur := rfl
  inside := le_refl _

/-- A machine of one engine that meets the invariant in the phase. -/
theorem inv_of {e : Engine} (herr : e.err = .none) (h : e.PhaseInv true) : (machine true e).Inv :=
  ⟨⟨fun _ => herr, h⟩, by intro f hf; simp [machine] at hf⟩

theorem witness_inv_ld : (machine true (scanEngine .ld 0 none)).Inv :=
  inv_of rfl ⟨0, 2, 0, scanEngine_scanAt .ld 0 none, by decide⟩

theorem witness_inv_tst : (machine true (scanEngine .tst 15 (some 0))).Inv :=
  inv_of rfl ⟨0, 2, 15, 0, scanEngine_scanAt .tst 15 _, by decide, by decide, rfl, by decide⟩

theorem witness_inv_pull : (machine true (scanEngine .pull 15 (some 0))).Inv :=
  inv_of rfl ⟨0, 2, 15, 0, scanEngine_scanAt .pull 15 _, by decide, ⟨by decide, rfl, by decide⟩, by decide⟩

theorem witness_inv_refill : (machine true (scanEngine .refill 16 (some 0))).Inv :=
  inv_of rfl ⟨0, 2, 16, 0, scanEngine_scanAt .refill 16 _, rfl, by decide, rfl, by decide⟩

theorem witness_inv_red : (machine true (scanEngine .red 0 (some 1))).Inv :=
  inv_of rfl ⟨0, 2, 0, 1, scanEngine_scanAt .red 0 _, by decide, ⟨by decide, rfl, by decide⟩, by decide⟩

theorem witness_inv_fin : (machine true finEngine).Inv :=
  inv_of rfl ⟨2, 0, finEngine_scanAt, by decide⟩

theorem witness_inv_chk : busyState.Inv := inv_of rfl ⟨rfl, rfl, rfl, rfl, rfl, rfl, rfl, rfl, rfl, rfl⟩

theorem witness_inv_done : finished.Inv :=
  inv_of rfl ⟨rfl, _, _, rfl, rfl, by simp [cells, Memory.wf], fun a => by
    change _ ↔ a < 8
    simp only [cells, Memory.byteAt]
    grind⟩

/-- From a scanning state that meets the invariant the machine steps. -/
theorem witness_invariant_step : (machine true (scanEngine .ld 0 none)).Inv ∧
    (machine true (scanEngine .ld 0 none)).eng.busy = true ∧ (machine true (scanEngine .ld 0 none)).engineMoves ∧
    ∃ t, step (machine true (scanEngine .ld 0 none)) = .next t :=
  ⟨witness_inv_ld, rfl, .inl rfl, _, rfl⟩

theorem witness_transition_from_chk : ∃ t, step busyState = .next t :=
  let ⟨_, h⟩ := exec_chk_next busyState.advance
  ⟨_, h⟩

theorem witness_aliasing : (machine true (scanEngine .ld 0 none)).Inv ∧ (scanEngine .ld 0 none).busy = true ∧
    (scanEngine .ld 0 none).xctr = some 2 ∧ (scanEngine .ld 0 none).blen = some 4 :=
  ⟨witness_inv_ld, rfl, rfl, rfl⟩

theorem witness_in_range : (machine true finEngine).Inv ∧ (machine true finEngine).eng.phase = .fin ∧
    (machine true finEngine).engineMoves ∧ ∃ t, step (machine true finEngine) = .next t :=
  ⟨witness_inv_fin, rfl, .inl rfl, _, rfl⟩

/-! ### Witnesses: the closed form -/

theorem scanEngine_traced : (scanEngine .ld 0 none).Traced :=
  ⟨0, 2, 0, 0, [],
    ⟨rfl, rfl, rfl, by decide, by decide, by change (1 + 1) * 16 + 0 = 2 * 16 + 0; decide, by decide, rfl, by simp⟩,
    .start, by simp [Engine.Last]⟩

theorem witness_closed_form_step : (machine true (scanEngine .ld 0 none)).Inv ∧
    (machine true (scanEngine .ld 0 none)).eng.Traced ∧ (machine true (scanEngine .ld 0 none)).engineMoves ∧
    ∃ t, step (machine true (scanEngine .ld 0 none)) = .next t :=
  ⟨witness_inv_ld, scanEngine_traced, .inl rfl, _, rfl⟩

/-- With the range `[0, 1)` nothing is rejected: the one element is accepted and its result is 0. -/
theorem finEngine_scanned : finEngine.Scanned 1 0 [finEngine.rawElem 0] :=
  .accepted (vs := []) .start (Nat.zero_le _)

theorem finEngine_traced : finEngine.Traced := by
  refine ⟨2, 0, 0, [finEngine.rawElem 0],
    ⟨rfl, rfl, rfl, by decide, by decide, by change (1 + 1) * 16 + 0 = 2 * 16 + 0; decide, le_refl _, rfl, ?_⟩,
    finEngine_scanned, by intro v h; cases h; rfl⟩
  intro j v h
  cases j with
  | zero =>
    have h : finEngine.elem .pbuf 0 = some 0 := rfl
    rw [h]
    congr 1
    have hs : finEngine.span = 1 := rfl
    have hl : finEngine.loU = 0 := rfl
    rw [Engine.resultOf, hs, hl, Nat.mod_one]
    rfl
  | succ j => simp at h

theorem witness_closed_form_end : (machine true finEngine).Inv ∧ (machine true finEngine).eng.Traced ∧
    (machine true finEngine).eng.phase = .fin ∧ (machine true finEngine).engineMoves ∧
    ∃ t, step (machine true finEngine) = .next t :=
  ⟨witness_inv_fin, finEngine_traced, rfl, .inl rfl, _, rfl⟩

/-- A call of one element in `[0, 1)` about to derive its buffer: the closed form accepts the raw element. -/
theorem witness_call_completes : (machine true (engine .dpri .w32 1 0 1)).Inv ∧
    (engine .dpri .w32 1 0 1).phase = .dpri ∧ (machine true (engine .dpri .w32 1 0 1)).agenda = [] ∧
    (engine .dpri .w32 1 0 1).Scanned (engine .dpri .w32 1 0 1).count.toNat 0 [(engine .dpri .w32 1 0 1).rawElem 0] ∧
    (engine .dpri .w32 1 0 1).blockCount + 1 + 0 / (engine .dpri .w32 1 0 1).wt.epb < 2 ^ 64 := by
  refine ⟨inv_of rfl ⟨⟨rfl, rfl, rfl, rfl, rfl, rfl, rfl, rfl, rfl, rfl⟩, rfl, ?_, by decide⟩, rfl, rfl, ?_, by decide⟩
  · change toS 32 0 < toS 32 1
    decide
  · exact .accepted (vs := []) .start (Nat.zero_le _)

theorem witness_closed_form_function : finEngine.Scanned 1 0 [finEngine.rawElem 0] ∧
    finEngine.Scanned 1 0 [finEngine.rawElem 0] := ⟨finEngine_scanned, finEngine_scanned⟩

/-- The same call on a second machine: other step count, another engine beside it, and another upper half of `HI`. -/
def otherMachine : State :=
  { machine true { scanEngine .ld 0 none with hi := 0x700000003 } with stepNo := 5, agenda := [.engine] }

theorem witness_same_call : (machine true (scanEngine .ld 0 none)).Inv ∧ otherMachine.Inv ∧
    (machine true (scanEngine .ld 0 none)).ksReady = otherMachine.ksReady ∧
    (machine true (scanEngine .ld 0 none)).eng.SameCall otherMachine.eng ∧
    (machine true (scanEngine .ld 0 none)).eng.busy = true ∧
    (machine true (scanEngine .ld 0 none)).engineMoves ∧ otherMachine.engineMoves ∧
    (∃ t, step (machine true (scanEngine .ld 0 none)) = .next t) ∧ ∃ t, step otherMachine = .next t := by
  refine ⟨witness_inv_ld, ?_, rfl, ?_, rfl, .inl rfl, .inr ⟨[], rfl⟩, ⟨_, rfl⟩, ⟨_, rfl⟩⟩
  · have h := scanEngine_scanAt .ld 0 none
    refine inv_of (e := otherMachine.eng) rfl ⟨0, 2, 0, ⟨?_, ⟨rfl, h.primary.covers, ?_, h.primary.raw⟩,
      ⟨rfl, rfl, h.extra.fits, h.extra.beyond, h.extra.covers, h.extra.holds⟩, rfl, rfl, rfl, rfl, Nat.zero_le _⟩,
      by decide⟩
    · exact ⟨rfl, by change toS 32 0 < toS 32 3; decide, by change 0 < 1; decide⟩
    · intro j hj; omega
  · constructor <;> rfl

theorem witness_accept : Engine.reset.seed = finished.eng.seed ∧
    (engine .idle .w32 1 0 3).count = (engine .idle .w32 1 0 0x700000003).count ∧
    (engine .idle .w32 1 0 3).lo.toNat % 2 ^ Width.w32.bits =
      (engine .idle .w32 1 0 0x700000003).lo.toNat % 2 ^ Width.w32.bits ∧
    (engine .idle .w32 1 0 3).hi.toNat % 2 ^ Width.w32.bits =
      (engine .idle .w32 1 0 0x700000003).hi.toNat % 2 ^ Width.w32.bits := by decide

end Sys2Proof.Tests
end

section
/-! What the machine consists of after reset (00_scope.md R12, 10_state.md R46, 60_exceptions.md R235). -/

namespace Sys2Proof.Machine

@[simp] theorem Engine.reset_phase : Engine.reset.phase = .idle := rfl

/-- The focused engine and its peers leave reset as one list of `NUM_ENGINES` engines at reset. -/
theorem State.reset_engines :
    State.reset.eng :: State.reset.peers = List.replicate Config.numEngines Engine.reset :=
  List.replicate_succ.symm

/-- Settles O55: the engines at reset are `NUM_ENGINES` copies of `Engine.reset`, whose phase is `IDLE`. -/
theorem allEnginesLeaveResetAlike : Obligations.AllEnginesLeaveResetAlike := by
  unfold Obligations.AllEnginesLeaveResetAlike
  rw [State.reset_engines]
  refine ⟨Nat.succ_pos Config.otherEngines, List.length_replicate, fun e he => ?_⟩
  obtain rfl : e = Engine.reset := List.eq_of_mem_replicate he
  exact ⟨rfl, Engine.reset_phase⟩

end Sys2Proof.Machine
end

section
/-! What every instruction leaves of the state outside the scan (10_state.md R21, R27 to R29, R45): each field an
instruction can change, with the instructions that change it. -/

namespace Sys2Proof.Machine

/-! ### A busy engine (10_state.md R45) -/

/-- While the engine is busy, a read of `STATUS` is the one host-port instruction that is not refused. -/
theorem exec_host_nakBusy {i : Instr} {s : State} (hm : i.engineOwn = false) (hb : s.eng.busy = true)
    (hi : i ≠ .rd 12) : exec i s = .next (s.nak .nakBusy) := by
  cases i with
  | rd a =>
    have ha : a ≠ 12 := fun h => hi (by rw [h])
    simp [exec, execRd, ha, hb]
  | wr a v => simp [exec, execWr, hb]
  | rdp a n => simp [exec, execRdp, hb]
  | ksinit => simp [exec, execKsinit, State.commandKsinit, hb]
  | gen32 => simp [exec, execGen32, State.commandGen, hb]
  | gen64 => simp [exec, execGen64, State.commandGen, hb]
  | _ => cases hm

/-- Settles O36: a read of `STATUS` is answered with its value, and every other host-port instruction with
`NAK_BUSY`. -/
theorem theHostCannotDisturbABusyEngine : Obligations.TheHostCannotDisturbABusyEngine := by
  unfold Obligations.TheHostCannotDisturbABusyEngine
  intro i s hb hi
  have hm : i.engineOwn = false := by
    rcases hi with ⟨_, rfl⟩ | ⟨_, _, rfl⟩ | ⟨_, _, rfl⟩ | rfl | rfl | rfl <;> rfl
  by_cases h12 : i = .rd 12
  · subst h12
    exact ⟨⟨.ack, some s.status⟩, rfl, fun h => absurd rfl h⟩
  · exact ⟨⟨.nakBusy, none⟩, exec_host_nakBusy hm hb h12, fun _ => rfl⟩

/-- Settles O35: the engine's own instructions keep the arguments and the width, and a host-port instruction only
gets a response. -/
theorem argumentsAreFrozenWhileBusy : Obligations.ArgumentsAreFrozenWhileBusy := by
  unfold Obligations.ArgumentsAreFrozenWhileBusy
  intro i s t hb h
  cases hm : i.engineOwn with
  | true =>
    have hk := exec_keeps hm h
    exact ⟨hk.seed, hk.count, hk.lo, hk.hi, hk.wt⟩
  | false =>
    obtain ⟨r, hr⟩ := exec_host_busy hm hb
    cases hr.symm.trans h
    exact ⟨rfl, rfl, rfl, rfl, rfl⟩

/-! ### `KS_READY`, `ERR` and `WT` (10_state.md R27 to R29) -/

/-- Only an accepted KSINIT writes the flag, and it can only set it. -/
theorem exec_ksReady {i : Instr} {s t : State} (h : exec i s = .next t) :
    t.ksReady = s.ksReady ∨
    ((i = .ksinit ∨ i = .wr 11 1) ∧ s.eng.busy = false ∧ t.ksReady = (s.ksReady || Config.initOk s.stepNo)) := by
  cases hm : i.engineOwn with
  | true => exact .inl (exec_keeps hm h).ks
  | false =>
    rcases exec_host_cases hm h with
      ⟨_, rfl⟩ | ⟨hb, hi, rfl⟩ | ⟨_, _, rfl⟩ | ⟨_, _, rfl⟩ | ⟨_, _, _, _, _, rfl⟩
    · exact .inl rfl
    · exact .inr ⟨hi, hb, rfl⟩
    · exact .inl rfl
    · exact .inl rfl
    · exact .inl rfl

/-- The error code is written by error entry (60_exceptions.md R228) and cleared by an accepted GEN (R230). -/
theorem exec_err {i : Instr} {s t : State} (h : exec i s = .next t) :
    t.eng.err = s.eng.err ∨
    (t.eng.err ≠ .none ∧ t.eng.phase = .idle ∧ t.eng.pbuf = none ∧ t.eng.xblk = none) ∨
    (t.eng.err = .none ∧ (i = .gen32 ∨ i = .gen64 ∨ i = .wr 11 0x2 ∨ i = .wr 11 0x12)) := by
  cases hm : i.engineOwn with
  | true => exact (exec_keeps hm h).err.imp_right .inl
  | false =>
    rcases exec_host_cases hm h with
      ⟨_, rfl⟩ | ⟨_, _, rfl⟩ | ⟨_, hi, rfl⟩ | ⟨_, hi, rfl⟩ | ⟨_, a, v, _, _, rfl⟩
    · exact .inl rfl
    · exact .inl rfl
    · exact .inr (.inr ⟨rfl, by tauto⟩)
    · exact .inr (.inr ⟨rfl, by tauto⟩)
    · exact .inl (s.eng.setRegister_err a v)

/-- The width tag is written by an accepted GEN, which starts a call at that width (10_state.md R47). -/
theorem exec_wt {i : Instr} {s t : State} (h : exec i s = .next t) :
    t.eng.wt = s.eng.wt ∨
    (s.eng.busy = false ∧ t.eng.phase = .chk ∧
      (((i = .gen32 ∨ i = .wr 11 0x2) ∧ t.eng.wt = .w32) ∨
        ((i = .gen64 ∨ i = .wr 11 0x12) ∧ t.eng.wt = .w64))) := by
  cases hm : i.engineOwn with
  | true => exact .inl (exec_keeps hm h).wt
  | false =>
    rcases exec_host_cases hm h with
      ⟨_, rfl⟩ | ⟨_, _, rfl⟩ | ⟨hb, hi, rfl⟩ | ⟨hb, hi, rfl⟩ | ⟨_, a, v, _, _, rfl⟩
    · exact .inl rfl
    · exact .inl rfl
    · exact .inr ⟨hb, rfl, .inl ⟨hi, rfl⟩⟩
    · exact .inr ⟨hb, rfl, .inr ⟨hi, rfl⟩⟩
    · exact .inl (s.eng.setRegister_wt a v)

/-- Settles O37: the flag is kept, or it is the old flag or the draw of an accepted KSINIT. -/
theorem ksReadyOnlyRises : Obligations.KsReadyOnlyRises := by
  unfold Obligations.KsReadyOnlyRises
  intro i s t h
  rcases exec_ksReady h with hk | ⟨hi, hb, hk⟩
  · rw [hk]
    exact ⟨id, fun h0 h1 => absurd h1 (by simp [h0])⟩
  · rw [hk]
    exact ⟨fun h1 => by simp [h1], fun h0 h1 => ⟨hi, hb, by simpa [h0] using h1⟩⟩

/-- Settles O38: of the three things that can happen to the error code, only error entry leaves a new one and only
an accepted GEN clears one. -/
theorem anErrorLeavesNoOutput : Obligations.AnErrorLeavesNoOutput := by
  unfold Obligations.AnErrorLeavesNoOutput
  intro i s t h
  rcases exec_err h with hkept | ⟨hne, hout⟩ | ⟨hclear, hi⟩
  · exact ⟨fun hnew => absurd hkept hnew, fun hold hnone => absurd (hkept.symm.trans hnone) hold⟩
  · exact ⟨fun _ _ => hout, fun _ hnone => absurd hnone hne⟩
  · exact ⟨fun _ hne => absurd hclear hne, fun _ _ => hi⟩

/-- Settles O39: a tag that is not the old one was written by an accepted GEN. -/
theorem onlyGenWritesTheWidth : Obligations.OnlyGenWritesTheWidth := by
  unfold Obligations.OnlyGenWritesTheWidth
  intro i s t h hne
  exact (exec_wt h).resolve_left hne

end Sys2Proof.Machine
end

section
/-! The one canonical form of both buffers (log entry 8), kept by every operation and so by every instruction. -/

namespace Sys2Proof.Machine

/-- Each buffer that is valid has its cells at strictly rising addresses. -/
def Engine.Canonical (e : Engine) : Prop := ∀ b m, e.buffer b = some m → Memory.wf m

section
variable {e f : Engine}

/-- Whatever else an update writes, a buffer that it keeps or makes invalid stays canonical. -/
theorem Engine.Canonical.of_kept_or_invalid (he : e.Canonical) (hp : f.pbuf = e.pbuf ∨ f.pbuf = none)
    (hx : f.xblk = e.xblk ∨ f.xblk = none) : f.Canonical := by
  intro b m hm
  cases b with
  | pbuf =>
    change f.pbuf = some m at hm
    rcases hp with hp | hp <;> rw [hp] at hm
    · exact he .pbuf m hm
    · cases hm
  | xblk =>
    change f.xblk = some m at hm
    rcases hx with hx | hx <;> rw [hx] at hm
    · exact he .xblk m hm
    · cases hm

theorem Engine.Canonical.of_kept (he : e.Canonical) (hp : f.pbuf = e.pbuf) (hx : f.xblk = e.xblk) : f.Canonical :=
  he.of_kept_or_invalid (.inl hp) (.inl hx)

theorem Engine.Canonical.setBuffer (he : e.Canonical) {m : Memory} (hm : Memory.wf m) (b : Buffer) :
    (e.setBuffer b m).Canonical := by
  intro c m' hm'
  cases b <;> cases c
  case pbuf.pbuf => cases hm'; exact hm
  case pbuf.xblk => exact he .xblk m' hm'
  case xblk.pbuf => exact he .pbuf m' hm'
  case xblk.xblk => cases hm'; exact hm

theorem Engine.Canonical.wf_getD (he : e.Canonical) (b : Buffer) : Memory.wf ((e.buffer b).getD []) := by
  cases h : e.buffer b with
  | none => exact Memory.wf_nil
  | some m => exact he b m h

theorem Engine.Canonical.filled (he : e.Canonical) (r : Request) : (e.filled r).Canonical :=
  he.setBuffer (Memory.wf_fill (he.wf_getD r.dst) r.length.toNat (keystream r)) r.dst

end

section
variable {s t : State}

/-- Error entry makes both buffers invalid (60_exceptions.md R228). -/
theorem State.raise_canonical (hs : s.eng.Canonical) (c : ErrorCode) : (s.raise c).eng.Canonical :=
  hs.of_kept_or_invalid (.inr rfl) (.inr rfl)

theorem State.deriveThen_canonical {dst : Buffer} {c : BitVec Config.counterBits} {n : BitVec 35}
    {k : State → Result} (h : s.deriveThen dst c n k = .next t) (hs : s.eng.Canonical)
    (hk : ∀ u : State, u.eng.Canonical → k u = .next t → t.eng.Canonical) : t.eng.Canonical := by
  rcases State.deriveThen_cases s dst c n k with ⟨err, -, h'⟩ | h' | h' <;> rw [h'] at h
  · cases h; exact State.raise_canonical hs err
  · cases h
  · exact hk _ (hs.filled _) h

/-- The engine's own instructions: a derived buffer is a fill, the result of RED is a write, the empty call's buffer
is empty, and the others keep each buffer or make it invalid. -/
theorem exec_own_canonical {i : Instr} (hm : i.engineOwn = true) (hs : s.eng.Canonical) (h : exec i s = .next t) :
    t.eng.Canonical := by
  cases i with
  | idle => cases h; exact hs
  | done => cases h; exact hs
  | chk =>
    simp only [exec, execChk] at h
    split at h; · cases h; exact State.raise_canonical hs _
    split at h; · cases h; exact State.raise_canonical hs _
    split at h
    · cases h; exact (hs.setBuffer Memory.wf_nil .pbuf).of_kept rfl rfl
    · cases h; exact hs.of_kept rfl rfl
  | dpri =>
    simp only [exec, execDpri] at h
    refine State.deriveThen_canonical h (hs.of_kept rfl rfl) fun u hu hk => ?_
    cases hk; exact hu.of_kept rfl rfl
  | dext =>
    simp only [exec, execDext] at h
    refine State.deriveThen_canonical h (hs.of_kept rfl rfl) fun u hu hk => ?_
    cases hk; exact hu.of_kept rfl rfl
  | thr => cases h; exact hs.of_kept rfl rfl
  | ld =>
    simp only [exec, execLd] at h
    split at h; · cases h; exact hs.of_kept rfl rfl
    split at h <;> cases h
    exact hs.of_kept rfl rfl
  | tst => cases h; exact hs.of_kept rfl rfl
  | pull =>
    simp only [exec, execPull] at h
    split at h <;> cases h
    exact hs.of_kept rfl rfl
  | refill =>
    simp only [exec, execRefill] at h
    split at h; · cases h; exact State.raise_canonical hs _
    refine State.deriveThen_canonical h (hs.of_kept rfl rfl) fun u hu hk => ?_
    cases hk; exact hu.of_kept rfl rfl
  | red =>
    simp only [exec, execRed] at h
    split at h <;> cases h
    next m _ hp _ => exact (hs.setBuffer (Memory.wf_writeLE (hs .pbuf m hp) _ _ _) .pbuf).of_kept rfl rfl
  | fin => cases h; exact hs.of_kept_or_invalid (.inl rfl) (.inr rfl)
  | derive dst c n =>
    refine State.deriveThen_canonical h hs fun u hu hk => ?_
    cases hk; exact hu
  | _ => cases hm

/-- A host-port instruction stores to no buffer; an accepted GEN makes both invalid (10_state.md R47). -/
theorem exec_host_canonical {i : Instr} (hm : i.engineOwn = false) (hs : s.eng.Canonical) (h : exec i s = .next t) :
    t.eng.Canonical := by
  rcases exec_host_cases hm h with ⟨_, rfl⟩ | ⟨_, _, rfl⟩ | ⟨_, _, rfl⟩ | ⟨_, _, rfl⟩ | ⟨_, a, v, _, _, rfl⟩
  · exact hs
  · exact hs
  · exact hs.of_kept_or_invalid (.inr rfl) (.inr rfl)
  · exact hs.of_kept_or_invalid (.inr rfl) (.inr rfl)
  · exact hs.of_kept (s.eng.setRegister_pbuf a v) (s.eng.setRegister_xblk a v)

end

/-- Settles O42: the engine's own instructions keep the form, and so do those of the host port. -/
theorem memoryStaysCanonical : Obligations.MemoryStaysCanonical := by
  unfold Obligations.MemoryStaysCanonical
  intro i s t hs h
  cases hm : i.engineOwn with
  | true => exact exec_own_canonical hm hs h
  | false => exact exec_host_canonical hm hs h

end Sys2Proof.Machine
end

section
/-! The fields of `STATUS` (10_state.md R25) and the codes they hold. -/

namespace Sys2Proof.Machine

theorem errorCode_lt (c : ErrorCode) : errorCode c < 2 ^ 2 := by cases c <;> decide

theorem tag_lt (w : Width) : w.tag < 2 := by cases w <;> decide

/-- `STATE` is 0 in `IDLE`, 2 in `DONE` and 1 in between (10_state.md R26). -/
theorem stateCode_eq (p : Phase) : stateCode p = if p = .idle then 0 else if p = .done then 2 else 1 := by
  cases p <;> rfl

theorem stateCode_lt (p : Phase) : stateCode p < 2 ^ 2 := by cases p <;> decide

theorem State.phaseField_of_not_busy {s : State} (h : s.eng.busy = false) :
    s.phaseField = s.eng.phase.code.toNat := by
  simp [State.phaseField, h]

theorem State.phaseField_of_busy {s : State} (h : s.eng.busy = true) :
    1 ≤ s.phaseField ∧ s.phaseField ≤ 10 := by
  have := (Config.busyPhase s.stepNo).isLt
  simp only [State.phaseField, h, if_true]
  omega

theorem State.phaseField_lt (s : State) : s.phaseField < 2 ^ 4 := by
  cases h : s.eng.busy with
  | false => rw [State.phaseField_of_not_busy h]; exact s.eng.phase.code.isLt
  | true => have := State.phaseField_of_busy h; omega

/-- A write of a register above `CMD` is refused whatever the value (10_state.md R44). -/
theorem exec_wr_of_not_writable {reg : Nat} (hr : 11 < reg) (v : Nat) (s : State) :
    exec (.wr reg v) s = .next (s.nak (if s.eng.busy then .nakBusy else .nakAccess)) := by
  cases hb : s.eng.busy <;> simp [exec, execWr, hb, hr]

/-- Each field of `STATUS` in its place. -/
theorem State.status_fields (s : State) :
    s.status < 2 ^ 13 ∧ s.status % 2 ^ 2 = stateCode s.eng.phase ∧ s.status / 2 ^ 2 % 2 = s.ksReady.toNat ∧
    s.status / 2 ^ 3 % 2 = 0 ∧ s.status / 2 ^ 4 % 2 ^ 4 = s.phaseField ∧
    s.status / 2 ^ 8 % 2 ^ 4 = errorCode s.eng.err ∧ s.status / 2 ^ 12 = s.eng.wt.tag := by
  have hstate := stateCode_lt s.eng.phase
  have hready := s.ksReady.toNat_le
  have hphase := s.phaseField_lt
  have herr := errorCode_lt s.eng.err
  have htag := tag_lt s.eng.wt
  unfold State.status
  omega

/-- Settles O8: the value read is `STATUS`, whose fields stand where R25 puts them. -/
theorem readStatusGivesTheFields : Obligations.ReadStatusGivesTheFields := by
  unfold Obligations.ReadStatusGivesTheFields
  intro s
  obtain ⟨hlt, hstate, hready, hzero, hphase, herr, htag⟩ := s.status_fields
  refine ⟨s.status, rfl, hlt, hstate.trans (stateCode_eq _), hready, hzero, herr, htag, ?_, ?_, ?_⟩
  · exact fun hb => hphase.trans (State.phaseField_of_not_busy hb)
  · exact fun hb => by rw [hphase]; exact State.phaseField_of_busy hb
  · exact fun w => exec_wr_of_not_writable (by decide) w s

/-- Settles O54: each table is evaluated. -/
theorem codesAreThoseOfTheTables : Obligations.CodesAreThoseOfTheTables := by
  unfold Obligations.CodesAreThoseOfTheTables
  decide

end Sys2Proof.Machine
end

section
/-! The life of a call outside the scan: reset (10_state.md R46), the acceptance of a GEN (R47), rest (R26), and the
step that runs what the agenda's next move decodes to. -/

namespace Sys2Proof.Machine

/-! ### Reset -/

/-- No working register holds a value after reset. -/
theorem Engine.reset_register {n : Nat} (h₁ : 13 ≤ n) (h₂ : n ≤ 20) : Engine.reset.register n = none := by
  interval_cases n <;> rfl

theorem exec_rd_of_no_value {s : State} {n : Nat} (hn : n ≠ 12) (hb : s.eng.busy = false)
    (hr : s.eng.register n = none) : exec (.rd n) s = .next (s.nak .nakAccess) := by
  simp [exec, execRd, hn, hb, hr]

/-- The range `[0, 0)` of the arguments at reset is empty at either width. -/
theorem Engine.reset_accept_argumentsValid (w : Width) : (Engine.reset.accept w).argumentsValid = false := by
  have hempty : ¬ (Engine.reset.accept w).loS < (Engine.reset.accept w).hiS := by cases w <;> decide
  exact Bool.eq_false_iff.2 fun h => hempty (Engine.argumentsValid_iff.1 h).1

theorem exec_chk_of_not_valid {s : State} (h : s.eng.argumentsValid = false) :
    exec .chk s = .next (s.raise .validation) := by
  simp [exec, execChk, h]

/-- Settles O1: the table's values are those of `Engine.reset`; a working register has none to read, and the empty
range fails CHK. -/
theorem resetGivesTheStatedValues : Obligations.ResetGivesTheStatedValues := by
  unfold Obligations.ResetGivesTheStatedValues
  refine ⟨rfl, rfl, rfl, rfl, rfl, fun i hi => ?_, rfl, rfl, rfl, rfl, rfl, rfl, rfl, rfl, rfl, rfl, rfl, rfl, rfl,
    fun n h₁ h₂ => ?_, fun w => ?_⟩
  · exact Vector.getElem_replicate hi
  · exact exec_rd_of_no_value (by omega) rfl (Engine.reset_register h₁ h₂)
  · exact ⟨_, exec_chk_of_not_valid (Engine.reset_accept_argumentsValid w), rfl, rfl⟩

/-- An engine at reset rests in `IDLE` with no error and no buffer, whatever the flag. -/
theorem Engine.reset_inv (ready : Bool) : Engine.reset.Inv ready :=
  ⟨fun h => absurd Engine.reset_phase h, rfl, rfl⟩

/-- Settles O43: every engine of the machine is `Engine.reset`. -/
theorem resetMeetsTheInvariant : Obligations.ResetMeetsTheInvariant := by
  unfold Obligations.ResetMeetsTheInvariant
  refine ⟨Engine.reset_inv _, fun e he => ?_⟩
  obtain rfl : e = Engine.reset := List.eq_of_mem_replicate he
  exact Engine.reset_inv _

/-! ### Acceptance and rest -/

theorem State.commandGen_of_not_busy {s : State} (hb : s.eng.busy = false) (w : Width) :
    s.commandGen w = (s.withEngine (s.eng.accept w)).ack := by
  simp [State.commandGen, hb]

/-- Settles O17: both commands are the acceptance of a call at their width. -/
theorem genStartsAFreshCall : Obligations.GenStartsAFreshCall := by
  unfold Obligations.GenStartsAFreshCall
  intro s hb
  exact ⟨congrArg Host.Outcome.next (State.commandGen_of_not_busy hb .w32),
    congrArg Host.Outcome.next (State.commandGen_of_not_busy hb .w64)⟩

/-- Settles O19: the instruction of a resting phase is the rest itself. -/
theorem restingPhasesChangeNothing : Obligations.RestingPhasesChangeNothing := by
  unfold Obligations.RestingPhasesChangeNothing
  refine ⟨fun s => ⟨rfl, rfl⟩, fun s hmove hphase => ?_⟩
  rw [step_of_engineMoves hmove]
  rcases hphase with h | h <;> rw [h] <;> rfl

/-! ### Which instruction a step runs -/

theorem step_of_fetch {s : State} {enc : Encoded} {i : Instr} (hf : s.fetch = some enc) (hd : decode enc = .ok i) :
    step s = exec i s.advance := by
  simp [step, hf, hd]

theorem State.advance_of_agenda {s : State} {l : List Event} (h : s.agenda.tail = l) :
    s.advance = { s with agenda := l, stepNo := s.stepNo + 1 } := by
  subst h; rfl

/-- Settles O3: a step fetches what the next move names, and runs what that decodes to. -/
theorem stepRunsTheDecodedInstruction : Obligations.StepRunsTheDecodedInstruction := by
  unfold Obligations.StepRunsTheDecodedInstruction
  refine ⟨fun s t rest i ha hd => ?_, fun s rest i ha hd => ?_, fun s i ha hd => ?_⟩
  all_goals
    have hadv := State.advance_of_agenda (congrArg List.tail ha)
    rw [step_of_fetch (by simp only [State.fetch, ha]) hd, hadv]
    rfl

end Sys2Proof.Machine
end

section
/-! The two operations that read an element of a buffer into `U` (42_sampler_loop.md R161, R163), and what the model
does about a byte that is not there (log entry 8). -/

namespace Sys2Proof.Machine

/-- All an LD can do: end the scan, load the element, or stop on a byte it does not find. -/
theorem exec_ld_cases (s : State) :
    (s.idxValue = s.eng.count ∧ exec .ld s = .next (s.withEngine { s.eng with phase := .fin })) ∨
    (s.idxValue ≠ s.eng.count ∧ ∃ v, s.eng.elem .pbuf s.idxValue.toNat = some v ∧
      exec .ld s = .next (s.withEngine { s.eng with u := some (BitVec.ofNat 64 v), phase := .tst })) ∨
    (s.idxValue ≠ s.eng.count ∧ s.eng.elem .pbuf s.idxValue.toNat = none ∧
      exec .ld s = .fault (.absentByte .pbuf (s.eng.elemAddr s.idxValue.toNat))) := by
  by_cases hend : s.idxValue = s.eng.count
  · exact .inl ⟨hend, if_pos hend⟩
  · cases hv : s.eng.elem .pbuf s.idxValue.toNat with
    | some v => exact .inr (.inl ⟨hend, v, rfl, by simp [exec, execLd, hend, hv]⟩)
    | none => exact .inr (.inr ⟨hend, rfl, by simp [exec, execLd, hend, hv]⟩)

/-- All a PULL can do: take the element at the cursor, or stop on a byte it does not find. -/
theorem exec_pull_cases (s : State) :
    (∃ v, s.eng.elem .xblk s.xcurValue.toNat = some v ∧
      exec .pull s = .next (s.withEngine { s.eng with
        u := some (BitVec.ofNat 64 v)
        xcur := some (s.xcurValue + 1)
        phase := if (s.xcurValue + 1).toNat = s.eng.wt.epb then .refill else .tst })) ∨
    (s.eng.elem .xblk s.xcurValue.toNat = none ∧
      exec .pull s = .fault (.absentByte .xblk (s.eng.elemAddr s.xcurValue.toNat))) := by
  cases hv : s.eng.elem .xblk s.xcurValue.toNat with
  | some v => exact .inl ⟨v, rfl, by simp [exec, execPull, hv]⟩
  | none => exact .inr ⟨rfl, by simp [exec, execPull, hv]⟩

theorem exec_red_of_absent {s : State} (h : s.eng.elem .pbuf s.idxValue.toNat = none) :
    exec .red s = .fault (.absentByte .pbuf (s.eng.elemAddr s.idxValue.toNat)) := by
  cases hp : s.eng.pbuf <;> simp [exec, execRed, h, hp]

/-- A request that stays inside the stream but not inside XBLK (20_memory.md R60). -/
theorem State.deriveThen_tooLong {s : State} (hready : s.ksReady = true) {c : BitVec Config.counterBits}
    {n : BitVec 35} (hstream : c.toNat * 64 + n.toNat ≤ 2 ^ 64 * 64) (hlong : 64 < n.toNat) (k : State → Result) :
    s.deriveThen .xblk c n k = .fault (.absentByte .xblk Config.blockBytes) := by
  have hinside : requestPastEnd (s.eng.request .xblk c n) = false := decide_eq_false (Nat.not_lt.2 hstream)
  simp [State.deriveThen, hready, hinside, hlong]

/-- Settles O34: of the cases of each access only the one without an element is left. -/
theorem accessToAnAbsentByteStops : Obligations.AccessToAnAbsentByteStops := by
  unfold Obligations.AccessToAnAbsentByteStops
  refine fun s => ⟨fun i hi hne habs => ?_, fun c hc habs => ?_, fun i hi habs => ?_,
    fun c n hready hstream hlong => ?_⟩
  · rw [← State.idxValue_eq hi] at hne habs ⊢
    rcases exec_ld_cases s with ⟨hend, -⟩ | ⟨-, v, hv, -⟩ | ⟨-, -, hstop⟩
    · exact absurd hend hne
    · cases hv.symm.trans habs
    · exact hstop
  · rw [← State.xcurValue_eq hc] at habs ⊢
    rcases exec_pull_cases s with ⟨v, hv, -⟩ | ⟨-, hstop⟩
    · cases hv.symm.trans habs
    · exact hstop
  · rw [← State.idxValue_eq hi] at habs ⊢
    exact exec_red_of_absent habs
  · exact State.deriveThen_tooLong hready hstream hlong _

end Sys2Proof.Machine
end

section
/-! The frame of memory (20_memory.md R60, R71): which instructions keep both buffers. -/

namespace Sys2Proof.Machine

theorem Engine.byteOf_congr {e f : Engine} (hp : f.pbuf = e.pbuf) (hx : f.xblk = e.xblk) (b : Buffer) (a : Nat) :
    f.byteOf b a = e.byteOf b a := by
  cases b with
  | pbuf => simp only [Engine.byteOf, Engine.buffer, hp]
  | xblk => simp only [Engine.byteOf, Engine.buffer, hx]

/-- Of all the host port can do, only the acceptance of a GEN touches a buffer (10_state.md R47). -/
theorem exec_host_buffers {i : Instr} {s t : State} (h : exec i s = .next t) (hm : i.engineOwn = false)
    (h32 : i ≠ .gen32) (h64 : i ≠ .gen64) (hcmd : ∀ v, i ≠ .wr 11 v) :
    t.eng.pbuf = s.eng.pbuf ∧ t.eng.xblk = s.eng.xblk := by
  rcases exec_host_cases hm h with ⟨_, rfl⟩ | ⟨_, _, rfl⟩ | ⟨_, hi, _⟩ | ⟨_, hi, _⟩ | ⟨_, a, v, _, _, rfl⟩
  · exact ⟨rfl, rfl⟩
  · exact ⟨rfl, rfl⟩
  · exact absurd hi (not_or.2 ⟨h32, hcmd _⟩)
  · exact absurd hi (not_or.2 ⟨h64, hcmd _⟩)
  · exact ⟨s.eng.setRegister_pbuf a v, s.eng.setRegister_xblk a v⟩

theorem exec_ld_buffers {s t : State} (h : exec .ld s = .next t) :
    t.eng.pbuf = s.eng.pbuf ∧ t.eng.xblk = s.eng.xblk := by
  rcases exec_ld_cases s with ⟨-, h'⟩ | ⟨-, v, -, h'⟩ | ⟨-, -, h'⟩ <;> cases h'.symm.trans h <;> exact ⟨rfl, rfl⟩

theorem exec_pull_buffers {s t : State} (h : exec .pull s = .next t) :
    t.eng.pbuf = s.eng.pbuf ∧ t.eng.xblk = s.eng.xblk := by
  rcases exec_pull_cases s with ⟨v, -, h'⟩ | ⟨-, h'⟩ <;> cases h'.symm.trans h
  exact ⟨rfl, rfl⟩

/-- Settles O40: each listed instruction keeps both buffers, and so every byte of them. -/
theorem instructionsThatStoreNothingLeaveTheBuffers : Obligations.InstructionsThatStoreNothingLeaveTheBuffers := by
  unfold Obligations.InstructionsThatStoreNothingLeaveTheBuffers
  intro i s t hi h b a
  suffices hkept : t.eng.pbuf = s.eng.pbuf ∧ t.eng.xblk = s.eng.xblk from Engine.byteOf_congr hkept.1 hkept.2 b a
  rcases hi with ⟨_, rfl⟩ | ⟨r, v, rfl, hr⟩ | ⟨_, _, rfl⟩ | rfl | rfl | rfl | rfl | rfl | rfl | rfl
  · exact exec_host_buffers h rfl nofun nofun nofun
  · exact exec_host_buffers h rfl nofun nofun fun _ hw => hr (Instr.wr.inj hw).1
  · exact exec_host_buffers h rfl nofun nofun nofun
  · exact exec_host_buffers h rfl nofun nofun nofun
  · cases h; exact ⟨rfl, rfl⟩
  · cases h; exact ⟨rfl, rfl⟩
  · cases h; exact ⟨rfl, rfl⟩
  · exact exec_ld_buffers h
  · cases h; exact ⟨rfl, rfl⟩
  · exact exec_pull_buffers h

end Sys2Proof.Machine
end

section
/-! The engines beside the focused one (20_memory.md R81, 60_exceptions.md R235): what an instruction and a step do
with them. -/

namespace Sys2Proof.Machine

theorem exec_peers {i : Instr} {s t : State} (h : exec i s = .next t) : t.peers = s.peers := by
  cases hm : i.engineOwn with
  | true => exact (exec_keeps hm h).peers
  | false =>
    rcases exec_host_cases hm h with ⟨_, rfl⟩ | ⟨_, _, rfl⟩ | ⟨_, _, rfl⟩ | ⟨_, _, rfl⟩ | ⟨_, _, _, _, _, rfl⟩ <;> rfl

/-- Whatever goes on after a rejection is a refused transaction. -/
theorem State.reject_next {s t : State} {r : Reject} (h : s.reject r = .next t) : t = s.nak .nakIllegal := by
  cases r <;> cases h <;> rfl

/-- All a step that goes on can do: run an instruction, refuse a transaction, reset, or change the focus. -/
theorem step_cases {s t : State} (h : step s = .next t) :
    (∃ i, exec i s.advance = .next t) ∨ t = s.advance.nak .nakIllegal ∨
    (∃ rest, s.agenda = .reset :: rest ∧ t = s.advance.resetAll) ∨
    (∃ k rest, s.agenda = .select k :: rest ∧ t = s.advance.select k) := by
  cases hf : s.fetch with
  | some enc =>
    cases hd : decode enc with
    | ok i => exact .inl ⟨i, by simpa only [step, hf, hd] using h⟩
    | error r => exact .inr (.inl (State.reject_next (r := r) (by simpa only [step, hf, hd] using h)))
  | none =>
    obtain rfl : s.passEvent = t := by simpa [step, hf] using h
    cases ha : s.agenda with
    | nil => simp [State.fetch, ha] at hf
    | cons ev rest =>
      cases ev with
      | host _ => simp [State.fetch, ha] at hf
      | engine => simp [State.fetch, ha] at hf
      | reset => exact .inr (.inr (.inl ⟨rest, rfl, by simp only [State.passEvent, ha]⟩))
      | select k => exact .inr (.inr (.inr ⟨k, rest, rfl, by simp only [State.passEvent, ha]⟩))

/-- A change of focus swaps two engines. -/
theorem State.select_peers_length (s : State) (k : Nat) : (s.select k).peers.length = s.peers.length := by
  unfold State.select
  split
  · exact List.length_set
  · rfl

/-- Settles O41: of the four things a step can do, the first two keep the peers, and a reset or a change of focus
keeps their number. -/
theorem enginesDoNotTouchEachOther : Obligations.EnginesDoNotTouchEachOther := by
  unfold Obligations.EnginesDoNotTouchEachOther
  refine ⟨fun i s t h => exec_peers h, fun s t h hreset hselect => ?_, fun s t h => ?_⟩
  · rcases step_cases h with ⟨i, hi⟩ | rfl | ⟨rest, ha, -⟩ | ⟨k, rest, ha, -⟩
    · exact (exec_peers hi).trans s.advance_peers
    · rfl
    · exact absurd ha (hreset rest)
    · exact absurd ha (hselect k rest)
  · rcases step_cases h with ⟨i, hi⟩ | rfl | ⟨_, _, rfl⟩ | ⟨k, _, _, rfl⟩
    · exact congrArg List.length ((exec_peers hi).trans s.advance_peers)
    · rfl
    · exact List.length_map _
    · exact s.advance.select_peers_length k

end Sys2Proof.Machine
end

section
/-! The gap between the primary region and the extra blocks (20_memory.md R72, R73). -/

namespace Sys2Proof.Machine

/-- A busy engine with a value in `XCTR` holds both buffers as the invariant describes them. -/
theorem Engine.PhaseInv.primaryAt_extraAt {r : Bool} {e : Engine} (h : e.PhaseInv r) (hb : e.busy = true)
    (hx : e.xctr ≠ none) : ∃ i y, e.PrimaryAt i ∧ e.ExtraAt y := by
  obtain ⟨hidle, hdone⟩ := Engine.busy_iff.1 hb
  cases hp : e.phase <;> simp only [Engine.PhaseInv, hp] at h
  case idle => exact absurd hp hidle
  case done => exact absurd hp hdone
  case chk => exact absurd h.xctr hx
  case dpri => exact absurd h.1.xctr hx
  case dext =>
    obtain ⟨-, -, hnone, -⟩ := h
    exact absurd hnone hx
  case thr =>
    obtain ⟨-, hprimary, hextra, -⟩ := h
    exact ⟨_, _, hprimary, hextra⟩
  case ld =>
    obtain ⟨i, y, c, hscan, -⟩ := h
    exact ⟨i, y, hscan.primary, hscan.extra⟩
  case tst | pull | refill | red =>
    obtain ⟨i, y, c, u, hscan, -⟩ := h
    exact ⟨i, y, hscan.primary, hscan.extra⟩
  case fin =>
    obtain ⟨y, c, hscan, -⟩ := h
    exact ⟨_, y, hscan.primary, hscan.extra⟩

/-- The block of `XCTR` begins at least a whole block above the bytes counted by `BLEN`. -/
theorem Engine.ExtraAt.beyond_blen {e : Engine} {i y : Nat} {x : BitVec Config.counterBits} {n : BitVec 35}
    (hextra : e.ExtraAt y) (hprimary : e.PrimaryAt i) (hx : e.xctr = some x) (hn : e.blen = some n) :
    n.toNat + 64 ≤ x.toNat * 64 := by
  obtain rfl : x = BitVec.ofNat _ y := Option.some.inj (hx.symm.trans hextra.xctr)
  obtain rfl : n = BitVec.ofNat 35 e.byteCount := Option.some.inj (hn.symm.trans hprimary.blen)
  rw [ofNat_toNat_of_lt hextra.fits, ofNat_toNat_of_lt e.byteCount_lt]
  calc e.byteCount + 64
      ≤ e.blockCount * 64 + 64 := Nat.add_le_add_right (ceilDiv_le e.byteCount) 64
    _ = (e.blockCount + Config.gapBlocks) * 64 := (Nat.add_mul e.blockCount Config.gapBlocks 64).symm
    _ ≤ y * 64 := Nat.mul_le_mul_right 64 hextra.beyond

/-- Settles O47: a value in `XCTR` is the invariant's block counter, which lies beyond the gap. -/
theorem theExtraRegionNeverAliases : Obligations.TheExtraRegionNeverAliases := by
  unfold Obligations.TheExtraRegionNeverAliases
  intro s x n hinv hb hx hn
  obtain ⟨i, y, hprimary, hextra⟩ := hinv.1.phase.primaryAt_extraAt hb (by simp [hx])
  have hgap := hextra.beyond_blen hprimary hx hn
  exact ⟨hgap, by omega⟩

end Sys2Proof.Machine
end

section
/-! What the decoders of formats C, P and T accept, each said once (30_encoding.md R92, R95, R106), and that decoding
undoes encoding. -/

namespace Sys2Proof

/-! ### Formats C and P -/

/-- The three command words and their commands (30_encoding.md R92, R94). -/
theorem decodeCommand_ok_iff {w : BitVec 32} {i : Instr} :
    decodeCommand w = .ok i ↔
      (w = 0x1#32 ∧ i = .ksinit) ∨ (w = 0x2#32 ∧ i = .gen32) ∨ (w = 0x12#32 ∧ i = .gen64) := by
  unfold decodeCommand
  split_ifs with h₁ h₂ h₃
  · simp [h₁, eq_comm]
  · simp [h₂, eq_comm]
  · simp [h₃, eq_comm]
  · simp [h₁, h₂, h₃]

theorem Phase.isSome_ofCode_iff (p : BitVec 4) : (Phase.ofCode p).isSome = true ↔ p.toNat < 12 := by
  revert p; decide

/-! ### Format T -/

theorem decode_reservedKind {t : Transaction} (h : t.kind = 3#2) : decode (.transaction t) = .error .reservedKind := by
  simp [decode, decodeTransaction, h]

/-- All a transaction can decode to, by its kind (30_encoding.md R106). -/
theorem decode_transaction_cases (t : Transaction) :
    (t.kind = 0#2 ∧ decode (.transaction t) = .ok (.rd t.reg)) ∨
    (t.kind = 1#2 ∧ decode (.transaction t) = .ok (decodeWrite t.reg t.data)) ∨
    (t.kind = 2#2 ∧ decode (.transaction t) = .ok (.rdp t.addr t.size)) ∨
    (t.kind = 3#2 ∧ decode (.transaction t) = .error .reservedKind) := by
  have hkind : ∀ k : BitVec 2, k = 0#2 ∨ k = 1#2 ∨ k = 2#2 ∨ k = 3#2 := by decide
  rcases hkind t.kind with h | h | h | h
  · simp [decode, decodeTransaction, h]
  · simp [decode, decodeTransaction, h]
  · simp [decode, decodeTransaction, h]
  · simp [decode_reservedKind h, h]

theorem isCommandWord_iff {data : Nat} : isCommandWord data = true ↔ data = 0x1 ∨ data = 0x2 ∨ data = 0x12 := by
  simp [isCommandWord, or_assoc]

/-- The writes that are no instruction of their own: those that spell a command (30_encoding.md R102). -/
theorem Instr.wf_wr_eq_false_iff {reg data : Nat} :
    (Instr.wr reg data).wf = false ↔ reg = 11 ∧ (data = 0x1 ∨ data = 0x2 ∨ data = 0x12) := by
  simp [Instr.wf, isCommandWord_iff]

/-- A write decodes to itself, or to the command it spells. -/
theorem decodeWrite_wf (reg data : Nat) : (decodeWrite reg data).wf = true := by
  cases h : (Instr.wr reg data).wf with
  | true => rwa [decodeWrite_of_wf h]
  | false =>
    obtain ⟨rfl, rfl | rfl | rfl⟩ := Instr.wf_wr_eq_false_iff.1 h
    · rfl
    · rfl
    · rfl

theorem wf_of_decode_transaction {t : Transaction} {i : Instr} (h : decode (.transaction t) = .ok i) :
    i.wf = true := by
  rcases decode_transaction_cases t with ⟨-, hd⟩ | ⟨-, hd⟩ | ⟨-, hd⟩ | ⟨-, hd⟩ <;> cases hd.symm.trans h
  · rfl
  · exact decodeWrite_wf t.reg t.data
  · rfl

/-! ### Decoding and encoding -/

/-- The hypothesis is used for a write alone: one that spells a command comes back as the command. -/
theorem decode_encode (seed : Config.Seed) {i : Instr} (h : i.wf = true) : decode (encode seed i) = .ok i := by
  cases i with
  | rd _ => rfl
  | wr _ _ => exact congrArg Except.ok (decodeWrite_of_wf h)
  | rdp _ _ => rfl
  | ksinit => rfl
  | gen32 => rfl
  | gen64 => rfl
  | derive _ _ _ => rfl
  | _ => exact Machine.decode_phase_code _

theorem encode_inj {seed : Config.Seed} {i j : Instr} (hi : i.wf = true) (hj : j.wf = true)
    (h : encode seed i = encode seed j) : i = j := by
  have hdecode : (.ok i : Except Reject Instr) = .ok j :=
    calc .ok i
        = decode (encode seed i) := (decode_encode seed hi).symm
      _ = decode (encode seed j) := congrArg decode h
      _ = .ok j := decode_encode seed hj
  exact Except.ok.inj hdecode

/-- Settles O6: the decoder is a left inverse of the encoder on well-formed instructions, so the encoder is injective
there, and a transaction decodes to nothing else. -/
theorem decodeInvertsEncode : Obligations.DecodeInvertsEncode := by
  unfold Obligations.DecodeInvertsEncode
  refine ⟨fun seed i hi => decode_encode seed hi, fun seed t i ht => ?_, fun seed i j hi hj => encode_inj hi hj⟩
  have hi := wf_of_decode_transaction ht
  exact ⟨hi, decode_encode seed hi⟩

/-! ### What is refused -/

theorem exists_decode_command_iff (w : BitVec 32) :
    (∃ i, decode (.command w) = .ok i) ↔ w.toNat = 0x1 ∨ w.toNat = 0x2 ∨ w.toNat = 0x12 := by
  simp [decode, decodeCommand_ok_iff, exists_or, BitVec.toNat_eq]

theorem exists_decode_phase_iff (p : BitVec 4) : (∃ i, decode (.phase p) = .ok i) ↔ p.toNat < 12 := by
  rw [← Phase.isSome_ofCode_iff]
  simp only [decode, decodePhase]
  cases Phase.ofCode p with
  | some ph => simp
  | none => simp

theorem exists_decode_transaction_iff (t : Transaction) :
    (∃ i, decode (.transaction t) = .ok i) ↔ t.kind.toNat < 3 := by
  rcases decode_transaction_cases t with ⟨hk, hd⟩ | ⟨hk, hd⟩ | ⟨hk, hd⟩ | ⟨hk, hd⟩ <;> simp [hk, hd]

/-- Settles O7, format by format. -/
theorem onlyReservedEncodingsAreRefused : Obligations.OnlyReservedEncodingsAreRefused := by
  unfold Obligations.OnlyReservedEncodingsAreRefused
  exact ⟨exists_decode_command_iff, exists_decode_phase_iff, exists_decode_transaction_iff⟩

end Sys2Proof
end

section
/-! A refused transaction in a step of the machine (30_encoding.md R99, R106), and the spec's own examples. -/

namespace Sys2Proof.Machine

theorem step_of_fetch_reject {s : State} {enc : Encoded} {r : Reject} (hf : s.fetch = some enc)
    (hd : decode enc = .error r) : step s = s.advance.reject r := by
  simp [step, hf, hd]

/-- Settles O4: the refusal of the reserved kind is one response, and the busy bit is not looked at. -/
theorem reservedKindIsAnsweredNakIllegal : Obligations.ReservedKindIsAnsweredNakIllegal := by
  unfold Obligations.ReservedKindIsAnsweredNakIllegal
  intro s t rest ha hk
  have hfetch : s.fetch = some (.transaction t) := by simp only [State.fetch, ha]
  have hadv := State.advance_of_agenda (congrArg List.tail ha)
  rw [step_of_fetch_reject hfetch (decode_reservedKind hk), hadv]
  rfl

/-- Settles O5: the two words are command words, the two codes are the codes of their phases, and each record is the
encoding of its instruction. -/
theorem wordsDecodeAsTheSpecSays : Obligations.WordsDecodeAsTheSpecSays := by
  unfold Obligations.WordsDecodeAsTheSpecSays
  have hrecord : ∀ i : Instr, i.wf = true → decode (encode Engine.reset.seed i) = .ok i :=
    fun _ hi => decode_encode _ hi
  exact ⟨decodeCommand_ok_iff.2 (.inl ⟨rfl, rfl⟩), decodeCommand_ok_iff.2 (.inr (.inr ⟨rfl, rfl⟩)),
    decode_phase_code .pull, decode_phase_code .refill,
    hrecord .ksinit rfl, hrecord .gen32 rfl, hrecord (.wr 8 5) rfl, hrecord (.rd 12) rfl, hrecord (.rdp 16 4) rfl⟩

end Sys2Proof.Machine
end

section
/-! The bytes a DERIVE writes (40_keystream_source.md R121), and its answer to each request. -/

namespace Sys2Proof.Machine

theorem Engine.byteOf_setBuffer_same (e : Engine) (b : Buffer) (m : Memory) (a : Nat) :
    (e.setBuffer b m).byteOf b a = Memory.byteAt m a := by
  cases b <;> rfl

/-- The destination becomes valid and its first `n` bytes are the stream's from block `c` on (40_keystream_source.md
R121); no other part of the engine is written. -/
theorem Engine.filled_request_eq (e : Engine) (dst : Buffer) (c : BitVec Config.counterBits) (n : BitVec 35) :
    ∃ m : Memory, e.filled (e.request dst c n) = e.setBuffer dst m ∧
      (∀ j, j < n.toNat → Memory.byteAt m j = some (Config.stream e.seed Config.nonce (c.toNat * 64 + j))) ∧
      (∀ j, n.toNat ≤ j → Memory.byteAt m j = e.byteOf dst j) := by
  obtain ⟨m, hm⟩ : ∃ m, e.filled (e.request dst c n) = e.setBuffer dst m := ⟨_, rfl⟩
  have hbyte (j : Nat) : Memory.byteAt m j =
      if j < n.toNat then some (keystream (e.request dst c n) j) else e.byteOf dst j := by
    rw [← e.byteOf_setBuffer_same dst, ← hm]
    exact e.byteOf_filled (e.request dst c n) j
  exact ⟨m, hm, fun j hj => (hbyte j).trans (if_pos hj), fun j hj => (hbyte j).trans (if_neg (Nat.not_lt.2 hj))⟩

/-- A request inside the stream and inside its destination is answered (40_keystream_source.md R121, R122). -/
theorem exec_derive_ok {s : State} (hready : s.ksReady = true) {dst : Buffer} {c : BitVec Config.counterBits}
    {n : BitVec 35} (hstream : c.toNat * 64 + n.toNat ≤ 2 ^ 64 * 64) (hfits : dst = .xblk → n.toNat ≤ 64) :
    ∃ m : Memory, exec (.derive dst c n) s = .next (s.withEngine (s.eng.setBuffer dst m)) ∧
      (∀ j, j < n.toNat → Memory.byteAt m j = some (Config.stream s.eng.seed Config.nonce (c.toNat * 64 + j))) ∧
      (∀ j, n.toNat ≤ j → Memory.byteAt m j = s.eng.byteOf dst j) := by
  obtain ⟨m, hfilled, hbelow, habove⟩ := s.eng.filled_request_eq dst c n
  refine ⟨m, ?_, hbelow, habove⟩
  rw [← hfilled]
  exact State.deriveThen_ok hready hstream hfits _

/-- Settles O33: the two errors are error entry, and any other request is answered; one to PBUF always fits. -/
theorem deriveFillsTheDestinationOrRaises : Obligations.DeriveFillsTheDestinationOrRaises := by
  unfold Obligations.DeriveFillsTheDestinationOrRaises
  refine fun s c n => ⟨fun dst hoff => ?_, fun dst hready hpast => ?_, fun hready hstream => ?_,
    fun hready hstream hfits => ?_⟩
  · exact State.deriveThen_notReady hoff dst c n _
  · exact State.deriveThen_pastEnd hready hpast _
  · exact exec_derive_ok hready hstream nofun
  · exact exec_derive_ok hready hstream fun _ => hfits

end Sys2Proof.Machine
end

section
/-! The set-up of a call (41_sampler_setup.md): CHK's tests, the two buffers that DPRI and DEXT derive, and the range
and threshold that THR computes. -/

namespace Sys2Proof.Machine

/-! ### CHK -/

theorem Engine.argumentsValid_eq_false_iff {e : Engine} :
    e.argumentsValid = false ↔ ¬ e.loS < e.hiS ∨ Config.maxCount.toNat < e.count.toNat := by
  rw [← Bool.not_eq_true, Engine.argumentsValid_iff, not_and_or, Nat.not_le]

/-- Past the argument tests CHK looks at the flag, and then at the count. -/
theorem exec_chk_of_valid {s : State} (h : s.eng.argumentsValid = true) :
    exec .chk s = .next
      (if s.ksReady = false then s.raise .initialization
       else if s.eng.count = 0 then s.withEngine { s.eng with blen := some 0, pbuf := some [], phase := .done }
       else s.withEngine { s.eng with phase := .dpri }) := by
  simp only [exec, execChk, h]
  cases s.ksReady with
  | false => rfl
  | true => exact (apply_ite Host.Outcome.next _ _ _).symm

/-- Settles O20: the two tests of the first line are one validity check, which fails or leaves the other two. -/
theorem chkTestsInOrder : Obligations.ChkTestsInOrder := by
  unfold Obligations.ChkTestsInOrder
  intro s
  cases hvalid : s.eng.argumentsValid with
  | false =>
    rw [if_pos (Engine.argumentsValid_eq_false_iff.1 hvalid)]
    exact exec_chk_of_not_valid hvalid
  | true =>
    rw [if_neg (fun hbad => by simp [Engine.argumentsValid_eq_false_iff.2 hbad] at hvalid)]
    exact exec_chk_of_valid hvalid

/-! ### The two buffers -/

/-- A DERIVE that raises nothing goes on from a state in which only the destination is written, with stream bytes
from block `c` on (40_keystream_source.md R121). -/
theorem State.deriveThen_setBuffer {s : State} (hready : s.ksReady = true) {dst : Buffer}
    {c : BitVec Config.counterBits} {n : BitVec 35} (hstream : c.toNat * 64 + n.toNat ≤ 2 ^ 64 * 64)
    (hfits : dst = .xblk → n.toNat ≤ 64) (k : State → Result) :
    ∃ m : Memory, s.deriveThen dst c n k = k (s.withEngine (s.eng.setBuffer dst m)) ∧
      (∀ j, j < n.toNat → Memory.byteAt m j = some (Config.stream s.eng.seed Config.nonce (c.toNat * 64 + j))) ∧
      (∀ j, n.toNat ≤ j → Memory.byteAt m j = s.eng.byteOf dst j) := by
  obtain ⟨m, hfilled, hbelow, habove⟩ := s.eng.filled_request_eq dst c n
  exact ⟨m, by rw [← hfilled, State.deriveThen_ok hready hstream hfits], hbelow, habove⟩

/-- A memory that begins with the first `count` elements' worth of the stream reads as the raw elements. -/
theorem Engine.readLE_rawElem {e : Engine} {m : Memory}
    (h : ∀ j, j < e.byteCount → Memory.byteAt m j = some (Config.stream e.seed Config.nonce j)) {i : Nat}
    (hi : i < e.count.toNat) : Memory.readLE m (i * e.wt.bytes) e.wt.bytes = some (e.rawElem i) := by
  refine Memory.readLE_stream fun j hj => h _ ?_
  calc i * e.wt.bytes + j
      < (i + 1) * e.wt.bytes := by rw [Nat.succ_mul]; exact Nat.add_lt_add_left hj _
    _ ≤ e.byteCount := Nat.mul_le_mul_right _ hi

/-- Settles O21: the request from block 0 is within the stream, its length is `COUNT * WB`, and the bytes it leaves
read as the raw elements. -/
theorem dpriDerivesThePrimaryBuffer : Obligations.DpriDerivesThePrimaryBuffer := by
  unfold Obligations.DpriDerivesThePrimaryBuffer
  intro s hready
  have hlength := s.eng.toNat_byteLength
  have hstream : (0 : BitVec Config.counterBits).toNat * 64 + s.eng.byteLength.toNat ≤ 2 ^ 64 * 64 := by
    have hfirst : (0 : BitVec Config.counterBits).toNat = 0 := rfl
    have := s.eng.byteLength.isLt
    omega
  obtain ⟨m, hexec, hbelow, habove⟩ :=
    State.deriveThen_setBuffer (s := s.withEngine { s.eng with blen := some s.eng.byteLength }) (dst := .pbuf)
      hready hstream nofun fun t => .next (t.withEngine { t.eng with phase := .dext })
  have hbytes (j : Nat) (hj : j < s.eng.byteLength.toNat) :
      Memory.byteAt m j = some (Config.stream s.eng.seed Config.nonce j) := by
    simpa using hbelow j hj
  exact ⟨s.eng.byteLength, m, hexec, hlength, hbytes, habove,
    fun i hi => Engine.readLE_rawElem (fun j hj => hbytes j (hlength ▸ hj)) hi⟩

/-- Every block counter can be derived into XBLK: the block ends within the stream and fills XBLK exactly. -/
theorem State.deriveThen_xblk {s : State} (hready : s.ksReady = true) (x : BitVec Config.counterBits)
    (k : State → Result) :
    ∃ m : Memory,
      s.deriveThen .xblk x (BitVec.ofNat 35 Config.blockBytes) k = k (s.withEngine (s.eng.setBuffer .xblk m)) ∧
      (∀ j, j < 64 → Memory.byteAt m j = some (Config.stream s.eng.seed Config.nonce (x.toNat * 64 + j))) ∧
      (∀ j, 64 ≤ j → Memory.byteAt m j = s.eng.byteOf .xblk j) := by
  have hlength : (BitVec.ofNat 35 Config.blockBytes).toNat = 64 := rfl
  have hstream : x.toNat * 64 + (BitVec.ofNat 35 Config.blockBytes).toNat ≤ 2 ^ 64 * 64 := by
    have hx : x.toNat < 2 ^ 64 := x.isLt
    omega
  exact State.deriveThen_setBuffer hready hstream (fun _ => hlength.le) k

/-- DEXT on a value in `BLEN`: `PBC`, the counter one gap block further, and that block of the stream. -/
theorem exec_dext_of_blen {s : State} {n : BitVec 35} (hready : s.ksReady = true) (hn : s.eng.blen = some n) :
    ∃ m : Memory,
      exec .dext s = .next (s.withEngine { s.eng with
        pbc := some (BitVec.ofNat 64 ((n.toNat + 63) / 64))
        xctr := some (BitVec.ofNat 64 ((n.toNat + 63) / 64 + 1))
        xblk := some m
        xcur := some 0
        phase := .thr }) ∧
      (∀ j, j < 64 → Memory.byteAt m j = some (Config.stream s.eng.seed Config.nonce
        ((BitVec.ofNat 64 ((n.toNat + 63) / 64 + 1)).toNat * 64 + j))) ∧
      (∀ j, 64 ≤ j → Memory.byteAt m j = s.eng.byteOf .xblk j) := by
  have hstill (e : Engine) : (s.withEngine e).ksReady = true := hready
  simp only [exec, execDext, State.blenValue_eq hn]
  exact State.deriveThen_xblk (hstill _) _ _

/-- Settles O22: both counters are far below the top of their registers, so both are exact. -/
theorem dextPlacesTheExtraBlock : Obligations.DextPlacesTheExtraBlock := by
  unfold Obligations.DextPlacesTheExtraBlock
  intro s n hready hn
  have hn35 := n.isLt
  have hpbc : (BitVec.ofNat 64 ((n.toNat + 63) / 64)).toNat = (n.toNat + 63) / 64 := ofNat_toNat_of_lt (by omega)
  have hxctr : (BitVec.ofNat 64 ((n.toNat + 63) / 64 + 1)).toNat = (n.toNat + 63) / 64 + 1 :=
    ofNat_toNat_of_lt (by omega)
  obtain ⟨m, hexec, hbelow, habove⟩ := exec_dext_of_blen hready hn
  exact ⟨_, _, m, hexec, hpbc, by rw [hxctr, hpbc], hbelow, habove⟩

/-! ### The range and the threshold -/

/-- On a range that is not empty THR writes the engine's true range and threshold (41_sampler_setup.md R144 to
R146). -/
theorem exec_thr_of_order {s : State} (h : s.eng.loS < s.eng.hiS) :
    exec .thr s = .next (s.withEngine { s.eng with
      range := some (BitVec.ofNat 64 s.eng.span)
      min := some (BitVec.ofNat 64 s.eng.threshold)
      idx := some 0
      phase := .ld }) := by
  simp only [exec, execThr, Engine.subMod_eq_span h, remainder_of_ne_zero (Engine.span_pos h).ne', Engine.threshold]

/-- Settles O23: the range written is the difference of the bounds, and both values fit their registers. -/
theorem thrComputesRangeAndThreshold : Obligations.ThrComputesRangeAndThreshold := by
  unfold Obligations.ThrComputesRangeAndThreshold
  intro s h
  refine ⟨_, _, exec_thr_of_order h, ?_, ?_⟩
  · rw [Engine.toNat_span h, ← Engine.subMod_eq_span h]
    exact Engine.subMod_bounds h
  · rw [Engine.toNat_threshold h, Engine.toNat_span h, Engine.threshold]

section
variable {e : Engine}

theorem Engine.threshold_lt_span (h : e.loS < e.hiS) : e.threshold < e.span :=
  Nat.mod_lt _ (Engine.span_pos h)

/-- The range itself is below `2^WBITS`, so the remainder is that of what the range leaves. -/
theorem Engine.threshold_le_sub_span (h : e.loS < e.hiS) : e.threshold ≤ 2 ^ e.wt.bits - e.span := by
  rw [Engine.threshold, Nat.mod_eq_sub_mod (Engine.span_lt h).le]
  exact Nat.mod_le _ _

theorem Engine.two_mul_threshold_lt (h : e.loS < e.hiS) : 2 * e.threshold < 2 ^ e.wt.bits := by
  have := Engine.threshold_lt_span h
  have := Engine.threshold_le_sub_span h
  have := Engine.span_lt h
  omega

theorem Engine.threshold_eq_zero_iff_dvd : e.threshold = 0 ↔ e.span ∣ 2 ^ e.wt.bits :=
  Nat.dvd_iff_mod_eq_zero.symm

/-- The divisors of a power of two are the powers of two up to it. -/
theorem Engine.threshold_eq_zero_iff_exists_pow (h : e.loS < e.hiS) : e.threshold = 0 ↔ ∃ j, e.span = 2 ^ j := by
  rw [Engine.threshold_eq_zero_iff_dvd, Nat.dvd_prime_pow Nat.prime_two]
  constructor
  · rintro ⟨j, -, hj⟩
    exact ⟨j, hj⟩
  · rintro ⟨j, hj⟩
    have hlt : 2 ^ j < 2 ^ e.wt.bits := hj ▸ Engine.span_lt h
    exact ⟨j, ((Nat.pow_lt_pow_iff_right Nat.one_lt_two).1 hlt).le, hj⟩

theorem Engine.two_pow_sub_threshold (e : Engine) :
    2 ^ e.wt.bits - e.threshold = e.span * (2 ^ e.wt.bits / e.span) :=
  Nat.sub_eq_of_eq_add (Nat.div_add_mod _ _).symm

end

/-- No value is below a threshold of 0. -/
theorem exec_tst_of_min_zero {s : State} {m : BitVec 64} (hm : s.eng.min = some m) (hzero : m.toNat = 0) :
    exec .tst s = .next (s.withEngine { s.eng with phase := .red }) := by
  simp [exec, execTst, State.minValue_eq hm, hzero]

/-- Settles O24: the registers hold the engine's range and threshold, of which each bound is a lemma above. -/
theorem thresholdIsBounded : Obligations.ThresholdIsBounded := by
  unfold Obligations.ThresholdIsBounded
  intro s t h hexec
  cases (exec_thr_of_order h).symm.trans hexec
  refine ⟨_, _, rfl, rfl, ?_⟩
  rw [Engine.toNat_span h, Engine.toNat_threshold h]
  refine ⟨Engine.threshold_lt_span h, Engine.threshold_le_sub_span h, Engine.two_mul_threshold_lt h,
    Engine.threshold_eq_zero_iff_dvd, Engine.threshold_eq_zero_iff_exists_pow h, fun hzero q hq => ?_,
    s.eng.two_pow_sub_threshold⟩
  exact exec_tst_of_min_zero hq ((Engine.toNat_threshold h).trans hzero)

end Sys2Proof.Machine
end

section
/-! The micro-operations of the scan (42_sampler_loop.md R161 to R166), each in any state, and the two arithmetic laws
of the reduction (R168, R177). -/

namespace Sys2Proof.Machine

/-! ### LD, TST, PULL -/

/-- A value read from one element fits `U` (10_state.md R37). -/
theorem Engine.toNat_ofNat_of_elem {e : Engine} {b : Buffer} {j v : Nat} (h : e.elem b j = some v) :
    (BitVec.ofNat 64 v).toNat = v := by
  suffices hv : v < 256 ^ e.wt.bytes from
    ofNat_toNat_of_lt (hv.trans_le (e.wt.pow_bytes.trans_le e.wt.two_pow_bits_le))
  unfold Engine.elem Engine.readBuffer at h
  split at h
  · exact Memory.readLE_lt h
  · cases h

theorem exec_ld_of_elem {s : State} {v : Nat} (hne : s.idxValue ≠ s.eng.count)
    (h : s.eng.elem .pbuf s.idxValue.toNat = some v) :
    exec .ld s = .next (s.withEngine { s.eng with u := some (BitVec.ofNat 64 v), phase := .tst }) := by
  rcases exec_ld_cases s with ⟨hend, -⟩ | ⟨-, w, hw, hexec⟩ | ⟨-, habs, -⟩
  · exact absurd hend hne
  · cases h.symm.trans hw; exact hexec
  · cases h.symm.trans habs

/-- Settles O26: the end test, and past it the load of the element that reads. -/
theorem ldLoadsTheElement : Obligations.LdLoadsTheElement := by
  unfold Obligations.LdLoadsTheElement
  intro s i hi
  rw [← State.idxValue_eq hi]
  refine ⟨fun hend => if_pos hend, fun v hne hv => ?_⟩
  exact ⟨_, Engine.toNat_ofNat_of_elem hv, exec_ld_of_elem hne hv⟩

theorem exec_tst (s : State) :
    exec .tst s = .next (s.withEngine
      { s.eng with phase := if s.uValue.toNat < s.minValue.toNat then .pull else .red }) := rfl

/-- Settles O27: the operands of TST are the two registers. -/
theorem tstRejectsBelowTheThreshold : Obligations.TstRejectsBelowTheThreshold := by
  unfold Obligations.TstRejectsBelowTheThreshold
  intro s u m hu hm
  rw [exec_tst, State.uValue_eq hu, State.minValue_eq hm]
  rfl

theorem exec_pull_of_elem {s : State} {v : Nat} (h : s.eng.elem .xblk s.xcurValue.toNat = some v) :
    exec .pull s = .next (s.withEngine { s.eng with
      u := some (BitVec.ofNat 64 v)
      xcur := some (s.xcurValue + 1)
      phase := if (s.xcurValue + 1).toNat = s.eng.wt.epb then .refill else .tst }) := by
  rcases exec_pull_cases s with ⟨w, hw, hexec⟩ | ⟨habs, -⟩
  · cases h.symm.trans hw; exact hexec
  · cases h.symm.trans habs

/-- Settles O28: a cursor below `EPB` moves by one without wrap. -/
theorem pullTakesTheNextExtraElement : Obligations.PullTakesTheNextExtraElement := by
  unfold Obligations.PullTakesTheNextExtraElement
  intro s c v hc hlt hv
  rw [← State.xcurValue_eq hc] at hlt hv ⊢
  have hnext : (s.xcurValue + 1).toNat = s.xcurValue.toNat + 1 :=
    BitVec.toNat_add_of_lt (Nat.lt_of_le_of_lt hlt s.eng.wt.epb_lt)
  exact ⟨_, _, Engine.toNat_ofNat_of_elem hv, hnext, exec_pull_of_elem hv⟩

/-! ### RFL -/

theorem exec_refill_of_top {s : State} (h : s.xctrValue.toNat = 2 ^ 64 - 1) :
    exec .refill s = .next (s.raise .counterExhausted) := if_pos h

/-- Below the top of the counter RFL derives the block of the next counter (42_sampler_loop.md R164). -/
theorem exec_refill_below_top {s : State} (hready : s.ksReady = true) (h : s.xctrValue.toNat ≠ 2 ^ 64 - 1) :
    ∃ m : Memory,
      exec .refill s = .next (s.withEngine { s.eng with
        xctr := some (s.xctrValue + 1), xblk := some m, xcur := some 0, phase := .tst }) ∧
      (∀ j, j < 64 → Memory.byteAt m j =
        some (Config.stream s.eng.seed Config.nonce ((s.xctrValue + 1).toNat * 64 + j))) ∧
      (∀ j, 64 ≤ j → Memory.byteAt m j = s.eng.byteOf .xblk j) := by
  have hstill (e : Engine) : (s.withEngine e).ksReady = true := hready
  have hexec : exec .refill s = _ := if_neg h
  rw [hexec]
  exact State.deriveThen_xblk (hstill _) _ _

/-- Settles O29: the two cases of RFL's test; below the top the counter does not wrap. -/
theorem rflRefillsOrRaises : Obligations.RflRefillsOrRaises := by
  unfold Obligations.RflRefillsOrRaises
  intro s x hx
  rw [← State.xctrValue_eq hx]
  refine ⟨exec_refill_of_top, fun hne hready => ?_⟩
  have hnext : (s.xctrValue + 1).toNat = s.xctrValue.toNat + 1 := by
    have hlt : s.xctrValue.toNat < 2 ^ 64 := s.xctrValue.isLt
    exact BitVec.toNat_add_of_lt (show s.xctrValue.toNat + 1 < 2 ^ 64 by omega)
  obtain ⟨m, hexec, hbelow, habove⟩ := exec_refill_below_top hready hne
  exact ⟨_, m, hnext, hexec, hbelow, habove⟩

/-! ### RED and FIN -/

theorem exec_red_of_elem {s : State} {m : Memory} {v : Nat} (hm : s.eng.pbuf = some m)
    (hv : s.eng.elem .pbuf s.idxValue.toNat = some v) :
    exec .red s = .next (s.withEngine { s.eng with
      pbuf := some (Memory.writeLE m (s.idxValue.toNat * s.eng.wt.bytes) s.eng.wt.bytes s.reduced)
      idx := some (s.idxValue + 1)
      phase := .ld }) := by
  simp only [exec, execRed, hm, hv]
  rfl

/-- Settles O30: the element's bytes are there, so RED writes over them; the write reads back as its value, which
fits the width. -/
theorem redStoresTheReducedValue : Obligations.RedStoresTheReducedValue := by
  unfold Obligations.RedStoresTheReducedValue
  intro s i u r hi hu hr hpos hbytes
  rw [← State.idxValue_eq hi] at hbytes ⊢
  obtain ⟨m, hm⟩ : ∃ m, s.eng.pbuf = some m := by
    have hfirst := hbytes 0 s.eng.wt.bytes_pos
    cases hp : s.eng.pbuf with
    | some m => exact ⟨m, rfl⟩
    | none => simp [Engine.byteOf, Engine.buffer, hp] at hfirst
  obtain ⟨v, hv⟩ : ∃ v, s.eng.elem .pbuf s.idxValue.toNat = some v := by
    rw [Engine.elem_pbuf hm, ← Option.isSome_iff_exists, Memory.readLE_isSome]
    intro b hle hlt
    obtain ⟨j, rfl⟩ := Nat.exists_eq_add_of_le hle
    rw [← Engine.byteOf_pbuf hm]
    exact hbytes j (by omega)
  have hreduced : s.reduced = (s.eng.loU + u.toNat % r.toNat) % 2 ^ s.eng.wt.bits := by
    rw [State.reduced, State.uValue_eq hu, State.rangeValue_eq hr, remainder_of_ne_zero hpos]
  refine ⟨_, exec_red_of_elem hm hv, ?_, fun a ha => ?_⟩
  · rw [Memory.readLE_writeLE, s.eng.wt.pow_bytes, hreduced, Nat.mod_mod]
    rfl
  · rw [Memory.byteAt_writeLE_outside _ _ _ _ _ ha, Engine.byteOf_pbuf hm]

/-- Settles O31: the pattern is the engine's result for `U`, which is exact and in range. -/
theorem theReductionIsExact : Obligations.TheReductionIsExact := by
  unfold Obligations.TheReductionIsExact
  intro s u r horder hu hr hrange
  have hspan : s.eng.span = r.toNat := by unfold Engine.span; omega
  have hreduced : s.reduced = s.eng.resultOf u.toNat := by
    rw [State.reduced, State.uValue_eq hu, State.rangeValue_eq hr, ← hspan,
      remainder_of_ne_zero (Engine.span_pos horder).ne', Engine.resultOf]
  rw [hreduced, ← hspan]
  exact ⟨Engine.toS_resultOf horder u.toNat, Engine.inRange_resultOf horder u.toNat⟩

/-- Settles O32: FIN has one case. -/
theorem finPresentsTheResult : Obligations.FinPresentsTheResult := by
  unfold Obligations.FinPresentsTheResult
  exact fun _ => rfl

/-! ### The count behind the absence of bias -/

/-- In an interval as long as `k` ranges every residue of the range occurs `k` times. -/
theorem card_filter_mod_eq (a k : Nat) {r q : Nat} (hq : q < r) :
    ((Finset.Ico a (a + r * k)).filter (fun u => u % r = q)).card = k := by
  have hperiodic : Function.Periodic (fun u => u % r = q) (r * k) := fun u => by simp
  have hcount : Nat.count (fun u => u % r = q) (r * k) = k := by
    have h := Nat.count_modEq_card (r * k) (Nat.zero_lt_of_lt hq) q
    simpa [Nat.ModEq, Nat.mod_eq_of_lt hq, Nat.mul_div_cancel_left k (Nat.zero_lt_of_lt hq)] using h
  rw [Nat.filter_Ico_card_eq_of_periodic _ _ _ hperiodic, hcount]

/-- Settles O25: the accepted values fill an interval whose length is the range times the stated count. -/
theorem everyResidueIsTakenEquallyOften : Obligations.EveryResidueIsTakenEquallyOften := by
  unfold Obligations.EveryResidueIsTakenEquallyOften
  intro s t h hexec
  cases (exec_thr_of_order h).symm.trans hexec
  refine ⟨_, _, rfl, rfl, fun q hq => ?_⟩
  rw [Engine.toNat_span h] at hq ⊢
  rw [Engine.toNat_threshold h]
  have hend : 2 ^ s.eng.wt.bits = s.eng.threshold + s.eng.span * (2 ^ s.eng.wt.bits / s.eng.span) :=
    (Nat.mod_add_div _ _).symm
  calc _ = ((Finset.Ico s.eng.threshold (s.eng.threshold + s.eng.span * (2 ^ s.eng.wt.bits / s.eng.span))).filter
        (fun u => u % s.eng.span = q)).card := by rw [← hend]
    _ = 2 ^ s.eng.wt.bits / s.eng.span := card_filter_mod_eq _ _ hq

end Sys2Proof.Machine
end

section
/-! What the invariant says of an engine carries over each update that the scan makes (42_sampler_loop.md R178). -/

namespace Sys2Proof.Machine

variable {ready : Bool} {e f : Engine} {i x c u : Nat}

/-! ### Updates that leave the buffers alone -/

theorem Engine.Checked.congr (h : e.Checked ready) (args : e.SameArgs f) : f.Checked ready := by
  obtain ⟨-, hcount, hlo, hhi, hwt⟩ := args
  cases e; cases f
  cases hcount; cases hlo; cases hhi; cases hwt
  exact ⟨h.ready, h.order, h.nonempty⟩

theorem Engine.PrimaryAt.congr (h : e.PrimaryAt i) (args : e.SameArgs f) (hblen : e.blen = f.blen)
    (hpbuf : e.pbuf = f.pbuf) : f.PrimaryAt i := by
  obtain ⟨hseed, hcount, hlo, hhi, hwt⟩ := args
  cases e; cases f
  cases hseed; cases hcount; cases hlo; cases hhi; cases hwt; cases hblen; cases hpbuf
  exact ⟨h.blen, h.covers, h.final, h.raw⟩

theorem Engine.ExtraAt.congr (h : e.ExtraAt x) (args : e.SameArgs f) (hpbc : e.pbc = f.pbc)
    (hxctr : e.xctr = f.xctr) (hxblk : e.xblk = f.xblk) : f.ExtraAt x := by
  obtain ⟨hseed, hcount, hlo, hhi, hwt⟩ := args
  cases e; cases f
  cases hseed; cases hcount; cases hlo; cases hhi; cases hwt; cases hpbc; cases hxctr; cases hxblk
  exact ⟨h.pbc, h.xctr, h.fits, h.beyond, h.covers, h.holds⟩

/-- The scan does not look at `U`. -/
theorem Engine.ScanAt.withU (h : e.ScanAt ready i x c) (v : Option (BitVec 64)) (p : Phase) :
    Engine.ScanAt ready { e with u := v, phase := p } i x c where
  checked := h.checked.congr ⟨rfl, rfl, rfl, rfl, rfl⟩
  primary := h.primary.congr ⟨rfl, rfl, rfl, rfl, rfl⟩ rfl rfl
  extra := h.extra.congr ⟨rfl, rfl, rfl, rfl, rfl⟩ rfl rfl rfl
  range := h.range
  min := h.min
  idx := h.idx
  xcur := h.xcur
  inside := h.inside

/-- PULL moves the cursor and nothing else of the scan. -/
theorem Engine.ScanAt.withCursor (h : e.ScanAt ready i x c) (d : Nat) (v : Option (BitVec 64)) (p : Phase) :
    Engine.ScanAt ready { e with u := v, xcur := some (BitVec.ofNat 5 d), phase := p } i x d where
  checked := h.checked.congr ⟨rfl, rfl, rfl, rfl, rfl⟩
  primary := h.primary.congr ⟨rfl, rfl, rfl, rfl, rfl⟩ rfl rfl
  extra := h.extra.congr ⟨rfl, rfl, rfl, rfl, rfl⟩ rfl rfl rfl
  range := h.range
  min := h.min
  idx := h.idx
  xcur := rfl
  inside := h.inside

/-! ### Updates of a buffer -/

/-- `XBLK` filled with the block of a counter beyond the gap. -/
theorem Engine.extraAt_of_bytes {m : Memory} (hpbc : e.pbc = some (BitVec.ofNat Config.counterBits e.blockCount))
    (hxctr : e.xctr = some (BitVec.ofNat Config.counterBits x)) (hxblk : e.xblk = some m)
    (hfits : x < 2 ^ Config.counterBits) (hbeyond : e.blockCount + Config.gapBlocks ≤ x)
    (hcovers : Memory.Covers m Config.blockBytes)
    (hbytes : ∀ j, j < 64 → Memory.byteAt m j = some (Config.stream e.seed Config.nonce (x * 64 + j))) :
    e.ExtraAt x where
  pbc := hpbc
  xctr := hxctr
  fits := hfits
  beyond := hbeyond
  covers := ⟨m, hxblk, hcovers⟩
  holds j hj := (Engine.byteOf_xblk hxblk j).trans (hbytes j hj)

/-- RFL puts the next block into `XBLK` and the cursor at its start. -/
theorem Engine.ScanAt.withBlock {m : Memory} (h : e.ScanAt ready i x c) (hfits : x + 1 < 2 ^ Config.counterBits)
    (hcovers : Memory.Covers m Config.blockBytes)
    (hbytes : ∀ j, j < 64 → Memory.byteAt m j = some (Config.stream e.seed Config.nonce ((x + 1) * 64 + j))) :
    Engine.ScanAt ready
      { e with xctr := some (BitVec.ofNat Config.counterBits (x + 1)), xblk := some m, xcur := some 0, phase := .tst }
      i (x + 1) 0 where
  checked := h.checked.congr ⟨rfl, rfl, rfl, rfl, rfl⟩
  primary := h.primary.congr ⟨rfl, rfl, rfl, rfl, rfl⟩ rfl rfl
  extra := Engine.extraAt_of_bytes h.extra.pbc rfl rfl hfits (Nat.le_succ_of_le h.extra.beyond) hcovers hbytes
  range := h.range
  min := h.min
  idx := h.idx
  xcur := rfl
  inside := h.inside

/-- The bytes of element `i` lie inside the primary region. -/
theorem Engine.elem_end_le (h : i < e.count.toNat) : i * e.wt.bytes + e.wt.bytes ≤ e.byteCount := by
  rw [← Nat.succ_mul]
  exact Nat.mul_le_mul_right _ h

/-- The result written over element `i` reads back as itself, and every other element as before. -/
theorem Memory.readLE_writeLE_resultOf (e : Engine) (m : Memory) (i j v : Nat) :
    Memory.readLE (Memory.writeLE m (i * e.wt.bytes) e.wt.bytes (e.resultOf v)) (j * e.wt.bytes) e.wt.bytes =
      if i = j then some (e.resultOf v) else Memory.readLE m (j * e.wt.bytes) e.wt.bytes := by
  split
  next h => rw [← h, Memory.readLE_writeLE, e.wt.pow_bytes, Nat.mod_eq_of_lt (e.resultOf_lt v)]
  next h => exact Memory.readLE_writeLE_other _ _ _ _ _ h

/-- RED makes element `i` final and moves on. -/
theorem Engine.ScanAt.withResult {m : Memory} (h : e.ScanAt ready i x c) (hm : e.pbuf = some m)
    (hi : i < e.count.toNat) (v : Nat) :
    Engine.ScanAt ready
      { e with
        pbuf := some (Memory.writeLE m (i * e.wt.bytes) e.wt.bytes (e.resultOf v))
        idx := some (BitVec.ofNat 32 (i + 1))
        phase := .ld }
      (i + 1) x c where
  checked := h.checked.congr ⟨rfl, rfl, rfl, rfl, rfl⟩
  primary :=
    { blen := h.primary.blen
      covers := by
        obtain ⟨m', hm', hcovers⟩ := h.primary.covers
        cases hm.symm.trans hm'
        exact ⟨_, rfl, hcovers.writeLE (Engine.elem_end_le hi) _⟩
      final := fun j hj hcount => by
        rw [Engine.elem_pbuf rfl, Memory.readLE_writeLE_resultOf, ← Engine.elem_pbuf hm]
        split
        · exact ⟨_, rfl, Engine.inRange_resultOf h.checked.order v⟩
        · exact h.primary.final j (by omega) hcount
      raw := fun j hj hcount => by
        rw [Engine.elem_pbuf rfl, Memory.readLE_writeLE_resultOf, ← Engine.elem_pbuf hm, if_neg (by omega)]
        exact h.primary.raw j (by omega) hcount }
  extra := h.extra.congr ⟨rfl, rfl, rfl, rfl, rfl⟩ rfl rfl rfl
  range := h.range
  min := h.min
  idx := rfl
  xcur := h.xcur
  inside := hi

end Sys2Proof.Machine
end

section
/-! The engine's own moves from a state of the invariant (42_sampler_loop.md R167): each is listed once, with what the
invariant says of the operands, and the micro-operation of the phase is one of them. -/

namespace Sys2Proof.Machine

/-- An engine that meets the invariant goes from phase `p` to the engine `f`. -/
inductive Engine.Moves (ready : Bool) (e : Engine) : Phase → Engine → Prop
  /-- `IDLE` rests. -/
  | idle : Engine.Moves ready e .idle e
  /-- `DONE` rests. -/
  | done : Engine.Moves ready e .done e
  /-- CHK enters one of its two errors (60_exceptions.md R228). -/
  | chkRaise {code : ErrorCode} (hcode : code ≠ .none) :
      Engine.Moves ready e .chk { e with err := code, pbuf := none, xblk := none, phase := .idle }
  /-- CHK finds the call empty. -/
  | chkEmpty (fresh : e.Fresh) :
      Engine.Moves ready e .chk { e with blen := some 0, pbuf := some [], phase := .done }
  /-- CHK lets the call go on. -/
  | chkPass (fresh : e.Fresh) (checked : e.Checked ready) : Engine.Moves ready e .chk { e with phase := .dpri }
  /-- DPRI derives the primary buffer. -/
  | dpri {m : Memory} (fresh : e.Fresh) (checked : e.Checked ready) (covers : Memory.Covers m e.byteCount)
      (bytes : ∀ j, j < e.byteCount → Memory.byteAt m j = some (Config.stream e.seed Config.nonce j)) :
      Engine.Moves ready e .dpri
        { e with blen := some (BitVec.ofNat 35 e.byteCount), pbuf := some m, phase := .dext }
  /-- DEXT derives the first extra block. -/
  | dext {m : Memory} (checked : e.Checked ready) (primary : e.PrimaryAt 0)
      (covers : Memory.Covers m Config.blockBytes)
      (bytes : ∀ j, j < 64 → Memory.byteAt m j =
        some (Config.stream e.seed Config.nonce ((e.blockCount + Config.gapBlocks) * 64 + j))) :
      Engine.Moves ready e .dext
        { e with
          pbc := some (BitVec.ofNat Config.counterBits e.blockCount)
          xctr := some (BitVec.ofNat Config.counterBits (e.blockCount + Config.gapBlocks))
          xblk := some m
          xcur := some 0
          phase := .thr }
  /-- THR computes the range and the threshold. -/
  | thr (checked : e.Checked ready) (primary : e.PrimaryAt 0)
      (extra : e.ExtraAt (e.blockCount + Config.gapBlocks)) (start : e.xcur = some 0) :
      Engine.Moves ready e .thr
        { e with
          range := some (BitVec.ofNat 64 e.span)
          min := some (BitVec.ofNat 64 e.threshold)
          idx := some 0
          phase := .ld }
  /-- LD loads the next raw element. -/
  | load {i x c : Nat} (scan : e.ScanAt ready i x c) (room : c < e.wt.epb) (more : i < e.count.toNat) :
      Engine.Moves ready e .ld { e with u := some (BitVec.ofNat 64 (e.rawElem i)), phase := .tst }
  /-- LD finds the end of the scan. -/
  | finish {x c : Nat} (scan : e.ScanAt ready e.count.toNat x c) (room : c < e.wt.epb) :
      Engine.Moves ready e .ld { e with phase := .fin }
  /-- TST rejects the value. -/
  | reject {i x c u : Nat} (scan : e.ScanAt ready i x c) (room : c < e.wt.epb) (test : e.TestAt i u)
      (low : u < e.threshold) : Engine.Moves ready e .tst { e with phase := .pull }
  /-- TST accepts the value. -/
  | accept {i x c u : Nat} (scan : e.ScanAt ready i x c) (room : c < e.wt.epb) (test : e.TestAt i u)
      (high : e.threshold ≤ u) : Engine.Moves ready e .tst { e with phase := .red }
  /-- PULL takes the next extra element, which is number `k` of the extra stream; after the last of the block comes
  the refill. -/
  | pull {i x c u k : Nat} (scan : e.ScanAt ready i x c) (room : c < e.wt.epb) (test : e.TestAt i u)
      (low : u < e.threshold)
      (pulls : (e.blockCount + Config.gapBlocks) * e.wt.epb + k = x * e.wt.epb + c) :
      Engine.Moves ready e .pull
        { e with
          u := some (BitVec.ofNat 64 (e.extraElem k))
          xcur := some (BitVec.ofNat 5 (c + 1))
          phase := if c + 1 = e.wt.epb then .refill else .tst }
  /-- RFL finds the counter at its top. -/
  | exhausted {i x u : Nat} (scan : e.ScanAt ready i x e.wt.epb) (test : e.TestAt i u)
      (top : x + 1 = 2 ^ Config.counterBits) :
      Engine.Moves ready e .refill { e with err := .counterExhausted, pbuf := none, xblk := none, phase := .idle }
  /-- RFL derives the next extra block. -/
  | refill {i x u : Nat} {m : Memory} (scan : e.ScanAt ready i x e.wt.epb) (test : e.TestAt i u)
      (fits : x + 1 < 2 ^ Config.counterBits) (covers : Memory.Covers m Config.blockBytes)
      (bytes : ∀ j, j < 64 → Memory.byteAt m j = some (Config.stream e.seed Config.nonce ((x + 1) * 64 + j))) :
      Engine.Moves ready e .refill
        { e with
          xctr := some (BitVec.ofNat Config.counterBits (x + 1)), xblk := some m, xcur := some 0, phase := .tst }
  /-- RED writes the result of the accepted value. -/
  | red {i x c u : Nat} {m : Memory} (scan : e.ScanAt ready i x c) (room : c < e.wt.epb) (test : e.TestAt i u)
      (high : e.threshold ≤ u) (held : e.pbuf = some m) :
      Engine.Moves ready e .red
        { e with
          pbuf := some (Memory.writeLE m (i * e.wt.bytes) e.wt.bytes (e.resultOf u))
          idx := some (BitVec.ofNat 32 (i + 1))
          phase := .ld }
  /-- FIN presents the result. -/
  | fin {x c : Nat} (scan : e.ScanAt ready e.count.toNat x c) (room : c < e.wt.epb) :
      Engine.Moves ready e .fin { e with xblk := none, phase := .done }

theorem Engine.Moves.sameArgs {ready : Bool} {e f : Engine} {p : Phase} (h : e.Moves ready p f) : e.SameArgs f := by
  cases h <;> exact ⟨rfl, rfl, rfl, rfl, rfl⟩

/-! ### The operands under the invariant -/

section
variable {e : Engine} {ready : Bool} {i x c k u : Nat}

/-- The extra blocks laid end to end are the extra stream (42_sampler_loop.md R169). -/
theorem Engine.ExtraAt.elem_eq_extraElem (h : e.ExtraAt x) (hc : c < e.wt.epb)
    (hk : (e.blockCount + Config.gapBlocks) * e.wt.epb + k = x * e.wt.epb + c) :
    e.elem .xblk c = some (e.extraElem k) := by
  have hbytes : x * 64 + c * e.wt.bytes = (e.blockCount + Config.gapBlocks) * 64 + k * e.wt.bytes := by
    have h := congrArg (· * e.wt.bytes) hk
    have htile : e.wt.epb * e.wt.bytes = 64 := e.wt.epb_mul_bytes
    simp only [Nat.add_mul, Nat.mul_assoc, htile] at h
    omega
  rw [h.elem hc, hbytes]
  rfl

/-- Every place in an extra block beyond the gap is an element of the extra stream. -/
theorem Engine.ExtraAt.exists_pulls (h : e.ExtraAt x) (c : Nat) :
    ∃ k, (e.blockCount + Config.gapBlocks) * e.wt.epb + k = x * e.wt.epb + c := by
  have := Nat.mul_le_mul_right e.wt.epb h.beyond
  exact ⟨x * e.wt.epb + c - (e.blockCount + Config.gapBlocks) * e.wt.epb, by omega⟩

theorem Engine.TestAt.toNat_ofNat (h : e.TestAt i u) : (BitVec.ofNat 64 u).toNat = u :=
  ofNat_toNat_of_lt (h.small.trans_le e.wt.two_pow_bits_le)

theorem Engine.ScanAt.lt_two_pow (h : e.ScanAt ready i x c) : i < 2 ^ 32 :=
  h.inside.trans_lt e.count.isLt

/-- A filled buffer that is canonical covers exactly the bytes written, when nothing was above them. -/
theorem Memory.covers_of_bytes {m : Memory} {n : Nat} {g : Nat → Byte} (hwf : Memory.wf m)
    (hbelow : ∀ j, j < n → Memory.byteAt m j = some (g j)) (habove : ∀ j, n ≤ j → Memory.byteAt m j = none) :
    Memory.Covers m n := by
  refine ⟨hwf, fun a => ?_⟩
  rcases Nat.lt_or_ge a n with h | h
  · simp [hbelow a h, h]
  · simp [habove a h, Nat.not_lt.2 h]

theorem Memory.Covers.byteAt_above {m : Memory} {n a : Nat} (h : Memory.Covers m n) (ha : n ≤ a) :
    Memory.byteAt m a = none := by
  rw [← Option.not_isSome_iff_eq_none, h.2 a]
  omega

/-- Both buffers of an engine of the invariant are canonical. -/
theorem Engine.canonical_of_wf (hp : ∀ m, e.pbuf = some m → Memory.wf m) (hx : ∀ m, e.xblk = some m → Memory.wf m) :
    e.Canonical := by
  intro b
  cases b with
  | pbuf => exact hp
  | xblk => exact hx

theorem Engine.PrimaryAt.wf {m : Memory} (h : e.PrimaryAt i) (hm : e.pbuf = some m) : Memory.wf m := by
  obtain ⟨m', hm', hcovers⟩ := h.covers
  cases hm.symm.trans hm'
  exact hcovers.1

theorem Engine.ExtraAt.wf {m : Memory} (h : e.ExtraAt x) (hm : e.xblk = some m) : Memory.wf m := by
  obtain ⟨m', hm', hcovers⟩ := h.covers
  cases hm.symm.trans hm'
  exact hcovers.1

end

/-! ### The micro-operation of each phase is one of the moves -/

section
variable {s : State} {i x c u : Nat}

/-- The machine goes on, and the engine by one of the moves from `p`. -/
def State.MovesFrom (s : State) (p : Phase) : Prop :=
  ∃ f, exec p.instr s = .next (s.withEngine f) ∧ s.eng.Moves s.ksReady p f

theorem Engine.ScanAt.toNat_idxValue (hscan : s.eng.ScanAt s.ksReady i x c) : s.idxValue.toNat = i := by
  rw [State.idxValue_eq hscan.idx, ofNat_toNat_of_lt hscan.lt_two_pow]

theorem movesFrom_chk (h : s.eng.Fresh) : s.MovesFrom .chk := by
  cases hvalid : s.eng.argumentsValid with
  | false => exact ⟨_, exec_chk_of_not_valid hvalid, .chkRaise (by decide)⟩
  | true =>
    have hexec := exec_chk_of_valid hvalid
    split_ifs at hexec with hready hempty
    · exact ⟨_, hexec, .chkRaise (by decide)⟩
    · exact ⟨_, hexec, .chkEmpty h⟩
    · have hcount : 0 < s.eng.count.toNat := Nat.pos_of_ne_zero fun h0 => hempty (BitVec.eq_of_toNat_eq h0)
      exact ⟨_, hexec, .chkPass h ⟨eq_true_of_ne_false hready, (Engine.argumentsValid_iff.1 hvalid).1, hcount⟩⟩

theorem movesFrom_dpri (hfresh : s.eng.Fresh) (hchecked : s.eng.Checked s.ksReady) : s.MovesFrom .dpri := by
  obtain ⟨n, m, hexec, hn, hbelow, habove, -⟩ := dpriDerivesThePrimaryBuffer s hchecked.ready
  have hcanonical : s.eng.Canonical :=
    Engine.canonical_of_wf (by simp [hfresh.pbuf]) (by simp [hfresh.xblk])
  have hwf : Memory.wf m := exec_own_canonical rfl hcanonical hexec .pbuf m rfl
  obtain rfl : n = BitVec.ofNat 35 s.eng.byteCount :=
    BitVec.eq_of_toNat_eq (hn.trans (ofNat_toNat_of_lt s.eng.byteCount_lt).symm)
  have hnone (j : Nat) : s.eng.byteOf .pbuf j = none := by simp [Engine.byteOf, Engine.buffer, hfresh.pbuf]
  rw [hn] at hbelow habove
  exact ⟨_, hexec, .dpri hfresh hchecked
    (Memory.covers_of_bytes hwf hbelow fun j hj => (habove j hj).trans (hnone j)) hbelow⟩

theorem movesFrom_dext (hchecked : s.eng.Checked s.ksReady) (hprimary : s.eng.PrimaryAt 0)
    (hxblk : s.eng.xblk = none) : s.MovesFrom .dext := by
  have hcanonical : s.eng.Canonical :=
    Engine.canonical_of_wf (fun _ hm => hprimary.wf hm) (by simp [hxblk])
  obtain ⟨m, hexec, hbelow, habove⟩ := exec_dext_of_blen hchecked.ready hprimary.blen
  have hwf : Memory.wf m := exec_own_canonical rfl hcanonical hexec .xblk m rfl
  have hblocks : ((BitVec.ofNat 35 s.eng.byteCount).toNat + 63) / 64 = s.eng.blockCount :=
    congrArg (fun n => (n + 63) / 64) (ofNat_toNat_of_lt s.eng.byteCount_lt)
  have hnone (j : Nat) : s.eng.byteOf .xblk j = none := by simp [Engine.byteOf, Engine.buffer, hxblk]
  have hfits : s.eng.blockCount + 1 < 2 ^ 64 := s.eng.blockCount_lt.trans (by norm_num)
  rw [hblocks] at hexec hbelow
  rw [ofNat_toNat_of_lt hfits] at hbelow
  exact ⟨_, hexec, .dext hchecked hprimary
    (Memory.covers_of_bytes hwf hbelow fun j hj => (habove j hj).trans (hnone j)) hbelow⟩

/-- Before the end of the scan the operand element of LD and RED is still raw. -/
theorem Engine.ScanAt.elem_idxValue (hscan : s.eng.ScanAt s.ksReady i x c) (hmore : i < s.eng.count.toNat) :
    s.eng.elem .pbuf s.idxValue.toNat = some (s.eng.rawElem i) := by
  rw [hscan.toNat_idxValue]
  exact hscan.primary.raw i le_rfl hmore

theorem movesFrom_ld (hscan : s.eng.ScanAt s.ksReady i x c) (hroom : c < s.eng.wt.epb) : s.MovesFrom .ld := by
  have hi := hscan.toNat_idxValue
  by_cases hend : s.idxValue = s.eng.count
  · obtain rfl : i = s.eng.count.toNat := by rw [← hi, hend]
    exact ⟨_, if_pos hend, .finish hscan hroom⟩
  · have hmore : i < s.eng.count.toNat :=
      lt_of_le_of_ne hscan.inside fun h => hend (BitVec.eq_of_toNat_eq (hi.trans h))
    exact ⟨_, exec_ld_of_elem hend (hscan.elem_idxValue hmore), .load hscan hroom hmore⟩

theorem movesFrom_tst (hscan : s.eng.ScanAt s.ksReady i x c) (hroom : c < s.eng.wt.epb) (htest : s.eng.TestAt i u) :
    s.MovesFrom .tst := by
  have hexec := exec_tst s
  rw [State.uValue_eq htest.held, State.minValue_eq hscan.min, htest.toNat_ofNat,
    Engine.toNat_threshold hscan.checked.order] at hexec
  split_ifs at hexec with hlow
  · exact ⟨_, hexec, .reject hscan hroom htest hlow⟩
  · exact ⟨_, hexec, .accept hscan hroom htest (Nat.le_of_not_lt hlow)⟩

theorem movesFrom_pull (hscan : s.eng.ScanAt s.ksReady i x c) (hroom : c < s.eng.wt.epb) (htest : s.eng.TestAt i u)
    (hlow : u < s.eng.threshold) : s.MovesFrom .pull := by
  obtain ⟨k, hk⟩ := hscan.extra.exists_pulls c
  have hepb := s.eng.wt.epb_lt
  have hxcur := State.xcurValue_eq hscan.xcur
  have hc : s.xcurValue.toNat = c := by rw [hxcur, ofNat_toNat_of_lt (hroom.trans hepb)]
  have hnext : s.xcurValue + 1 = BitVec.ofNat 5 (c + 1) := by rw [hxcur]; exact (BitVec.ofNat_add c 1).symm
  have helem : s.eng.elem .xblk s.xcurValue.toNat = some (s.eng.extraElem k) := by
    rw [hc]; exact hscan.extra.elem_eq_extraElem hroom hk
  have hexec := exec_pull_of_elem helem
  rw [hnext, ofNat_toNat_of_lt (Nat.lt_of_le_of_lt hroom hepb)] at hexec
  exact ⟨_, hexec, .pull hscan hroom htest hlow hk⟩

theorem movesFrom_refill (hscan : s.eng.ScanAt s.ksReady i x s.eng.wt.epb) (htest : s.eng.TestAt i u) :
    s.MovesFrom .refill := by
  have hxctr := State.xctrValue_eq hscan.extra.xctr
  have hx : s.xctrValue.toNat = x := by rw [hxctr, ofNat_toNat_of_lt hscan.extra.fits]
  by_cases htop : s.xctrValue.toNat = 2 ^ 64 - 1
  · have hlast : x + 1 = 2 ^ 64 := by omega
    exact ⟨_, exec_refill_of_top htop, .exhausted hscan htest hlast⟩
  · have hfits : x + 1 < 2 ^ 64 := by
      have : x < 2 ^ 64 := hscan.extra.fits
      omega
    have hnext : s.xctrValue + 1 = BitVec.ofNat Config.counterBits (x + 1) := by
      rw [hxctr]; exact (BitVec.ofNat_add x 1).symm
    have hcanonical : s.eng.Canonical :=
      Engine.canonical_of_wf (fun _ hm => hscan.primary.wf hm) (fun _ hm => hscan.extra.wf hm)
    obtain ⟨m, hexec, hbelow, habove⟩ := exec_refill_below_top hscan.checked.ready htop
    obtain ⟨old, hold, hcovers⟩ := hscan.extra.covers
    have hwf : Memory.wf m := exec_own_canonical rfl hcanonical hexec .xblk m rfl
    have hnone (j : Nat) (hj : 64 ≤ j) : Memory.byteAt m j = none :=
      (habove j hj).trans ((Engine.byteOf_xblk hold j).trans (hcovers.byteAt_above hj))
    rw [hnext] at hexec hbelow
    rw [ofNat_toNat_of_lt hfits] at hbelow
    exact ⟨_, hexec, .refill hscan htest hfits (Memory.covers_of_bytes hwf hbelow hnone) hbelow⟩

theorem movesFrom_red (hscan : s.eng.ScanAt s.ksReady i x c) (hroom : c < s.eng.wt.epb) (htest : s.eng.TestAt i u)
    (hhigh : s.eng.threshold ≤ u) : s.MovesFrom .red := by
  obtain ⟨m, hm, -⟩ := hscan.primary.covers
  have hidx := State.idxValue_eq hscan.idx
  have hnext : s.idxValue + 1 = BitVec.ofNat 32 (i + 1) := by rw [hidx]; exact (BitVec.ofNat_add i 1).symm
  have hexec := exec_red_of_elem hm (hscan.elem_idxValue htest.within)
  rw [hscan.toNat_idxValue, hnext, State.reduced_eq hscan htest] at hexec
  exact ⟨_, hexec, .red hscan hroom htest hhigh hm⟩

/-- Every phase of the invariant: the engine's own step is one of the moves. -/
theorem Engine.PhaseInv.movesFrom (h : s.eng.PhaseInv s.ksReady) : s.MovesFrom s.eng.phase := by
  cases hp : s.eng.phase <;> simp only [Engine.PhaseInv, hp] at h
  case idle => exact ⟨_, rfl, .idle⟩
  case done => exact ⟨_, rfl, .done⟩
  case chk => exact movesFrom_chk h
  case dpri =>
    obtain ⟨hfresh, hchecked⟩ := h
    exact movesFrom_dpri hfresh hchecked
  case dext =>
    obtain ⟨hchecked, hprimary, -, hxblk⟩ := h
    exact movesFrom_dext hchecked hprimary hxblk
  case thr =>
    obtain ⟨hchecked, hprimary, hextra, hstart⟩ := h
    exact ⟨_, exec_thr_of_order hchecked.order, .thr hchecked hprimary hextra hstart⟩
  case ld =>
    obtain ⟨i, x, c, hscan, hroom⟩ := h
    exact movesFrom_ld hscan hroom
  case tst =>
    obtain ⟨i, x, c, u, hscan, hroom, htest⟩ := h
    exact movesFrom_tst hscan hroom htest
  case pull =>
    obtain ⟨i, x, c, u, hscan, hroom, htest, hlow⟩ := h
    exact movesFrom_pull hscan hroom htest hlow
  case refill =>
    obtain ⟨i, x, c, u, hscan, rfl, htest⟩ := h
    exact movesFrom_refill hscan htest
  case red =>
    obtain ⟨i, x, c, u, hscan, hroom, htest, hhigh⟩ := h
    exact movesFrom_red hscan hroom htest hhigh
  case fin =>
    obtain ⟨x, c, hscan, hroom⟩ := h
    exact ⟨_, rfl, .fin hscan hroom⟩

end

end Sys2Proof.Machine
end

section
/-! The invariant of every step (42_sampler_loop.md R178): the engine's moves keep it, and so do the moves of the host,
a reset and a change of focus. -/

namespace Sys2Proof.Machine

/-! ### The engine's moves -/

section
variable {ready : Bool} {e f : Engine} {p : Phase} {i x c u : Nat}

theorem Engine.Fresh.withPhase (h : e.Fresh) (p : Phase) : Engine.Fresh { e with phase := p } :=
  ⟨h.blen, h.pbc, h.xctr, h.xcur, h.range, h.min, h.idx, h.u, h.pbuf, h.xblk⟩

/-- DPRI leaves a primary buffer in which every element is raw. -/
theorem Engine.primaryAt_zero {m : Memory} (hblen : e.blen = some (BitVec.ofNat 35 e.byteCount))
    (hpbuf : e.pbuf = some m) (hcovers : Memory.Covers m e.byteCount)
    (hbytes : ∀ j, j < e.byteCount → Memory.byteAt m j = some (Config.stream e.seed Config.nonce j)) :
    e.PrimaryAt 0 where
  blen := hblen
  covers := ⟨m, hpbuf, hcovers⟩
  final j hj := absurd hj j.not_lt_zero
  raw j _ hj := by rw [Engine.elem_pbuf hpbuf, Engine.readLE_rawElem hbytes hj]

/-- THR begins the scan at the first element and the start of the first extra block. -/
theorem Engine.scanAt_zero (hchecked : e.Checked ready) (hprimary : e.PrimaryAt 0)
    (hextra : e.ExtraAt x) (hxcur : e.xcur = some 0) :
    Engine.ScanAt ready
      { e with
        range := some (BitVec.ofNat 64 e.span), min := some (BitVec.ofNat 64 e.threshold), idx := some 0, phase := .ld }
      0 x 0 where
  checked := hchecked.congr ⟨rfl, rfl, rfl, rfl, rfl⟩
  primary := hprimary.congr ⟨rfl, rfl, rfl, rfl, rfl⟩ rfl rfl
  extra := hextra.congr ⟨rfl, rfl, rfl, rfl, rfl⟩ rfl rfl rfl
  range := rfl
  min := rfl
  idx := rfl
  xcur := hxcur
  inside := Nat.zero_le _

/-- At the end of the scan `PBUF` covers all of `BLEN`. -/
theorem Engine.PrimaryAt.covers_blen (h : e.PrimaryAt i) :
    ∃ m b, e.pbuf = some m ∧ e.blen = some b ∧ Memory.Covers m b.toNat := by
  obtain ⟨m, hm, hcovers⟩ := h.covers
  exact ⟨m, _, hm, h.blen, by rwa [ofNat_toNat_of_lt e.byteCount_lt]⟩

theorem Engine.Moves.phaseInv (h : e.Moves ready p f) (hp : e.phase = p) (he : e.PhaseInv ready) :
    f.PhaseInv ready := by
  have args := h.sameArgs
  cases h with
  | idle => exact he
  | done => exact he
  | chkRaise => exact ⟨rfl, rfl⟩
  | exhausted => exact ⟨rfl, rfl⟩
  | chkEmpty fresh => exact ⟨fresh.xblk, [], 0, rfl, rfl, Memory.wf_nil, by simp⟩
  | chkPass fresh checked => exact ⟨fresh.withPhase _, checked.congr args⟩
  | dpri fresh checked covers bytes =>
    exact ⟨checked.congr args, Engine.primaryAt_zero rfl rfl covers bytes, fresh.xctr, fresh.xblk⟩
  | dext checked primary covers bytes =>
    refine ⟨checked.congr args, primary.congr args rfl rfl, ?_, rfl⟩
    exact Engine.extraAt_of_bytes rfl rfl rfl (e.blockCount_lt.trans (by norm_num)) le_rfl covers bytes
  | thr checked primary extra start =>
    exact ⟨0, _, 0, Engine.scanAt_zero checked primary extra start, e.wt.epb_pos⟩
  | load scan room more => exact ⟨_, _, _, _, scan.withU _ _, room, more, rfl, e.rawElem_lt _⟩
  | finish scan room => exact ⟨_, _, scan.withU _ _, room⟩
  | reject scan room test low =>
    exact ⟨_, _, _, _, scan.withU _ _, room, ⟨test.within, test.held, test.small⟩, low⟩
  | accept scan room test high =>
    exact ⟨_, _, _, _, scan.withU _ _, room, ⟨test.within, test.held, test.small⟩, high⟩
  | @pull i x c u k scan room test low pulls =>
    split
    next hlast => exact ⟨i, x, c + 1, _, scan.withCursor _ _ _, hlast, test.within, rfl, e.extraElem_lt k⟩
    next hmore =>
      exact ⟨i, x, c + 1, _, scan.withCursor _ _ _, lt_of_le_of_ne room hmore, test.within, rfl, e.extraElem_lt k⟩
  | refill scan test fits covers bytes =>
    exact ⟨_, _, _, _, scan.withBlock fits covers bytes, e.wt.epb_pos, test.within, test.held, test.small⟩
  | red scan room test high held => exact ⟨_, _, _, scan.withResult held test.within _, room⟩
  | fin scan room => exact ⟨rfl, (scan.primary.congr args rfl rfl).covers_blen⟩

/-- A move that does not end in `IDLE` did not begin there and keeps the error code. -/
theorem Engine.Moves.err_of_ne_idle (h : e.Moves ready p f) (hp : e.phase = p) (hf : f.phase ≠ .idle) :
    f.err = e.err ∧ e.phase ≠ .idle := by
  cases h with
  | idle => exact ⟨rfl, hf⟩
  | done => exact ⟨rfl, hf⟩
  | chkRaise => exact absurd rfl hf
  | exhausted => exact absurd rfl hf
  | _ => exact ⟨rfl, by simp [hp]⟩

theorem Engine.Moves.inv (h : e.Moves ready e.phase f) (he : e.Inv ready) : f.Inv ready where
  err hf := by
    obtain ⟨hkept, hbusy⟩ := h.err_of_ne_idle rfl hf
    rw [hkept, he.err hbusy]
  phase := h.phaseInv rfl he.phase

/-- The moves are those of the transition table (42_sampler_loop.md R167). -/
theorem Engine.Moves.follows (h : e.Moves ready p f) (hidle : p ≠ .idle) (hdone : p ≠ .done) :
    follows p f.phase = true := by
  cases h with
  | idle => exact absurd rfl hidle
  | done => exact absurd rfl hdone
  | pull => dsimp only; split <;> rfl
  | _ => rfl

/-- A busy engine comes to `IDLE` by error entry alone. -/
theorem Engine.Moves.err_of_idle (h : e.Moves ready p f) (hidle : p ≠ .idle) (hp : e.phase = p)
    (hf : f.phase = .idle) : f.err ≠ .none := by
  cases h with
  | idle => exact absurd rfl hidle
  | done => simp [hp] at hf
  | chkRaise hcode => exact hcode
  | exhausted => exact ErrorCode.noConfusion
  | pull => dsimp only at hf; split at hf <;> cases hf
  | _ => cases hf

end

/-! ### The step of a machine -/

section
variable {s t : State}

/-- All a step is: the engine's own instruction, one of the host port's, a refused transaction, a reset, or a change of
focus. -/
theorem step_eq_cases (s : State) :
    (s.engineMoves ∧ step s = exec s.eng.phase.instr s.advance) ∨
    (∃ i, i.engineOwn = false ∧ step s = exec i s.advance) ∨
    step s = .next (s.advance.nak .nakIllegal) ∨
    step s = .next s.advance.resetAll ∨
    ∃ k, step s = .next (s.advance.select k) := by
  cases ha : s.agenda with
  | nil => exact .inl ⟨.inl ha, step_of_engineMoves (.inl ha)⟩
  | cons ev rest =>
    cases ev with
    | engine => exact .inl ⟨.inr ⟨rest, ha⟩, step_of_engineMoves (.inr ⟨rest, ha⟩)⟩
    | host tr =>
      have hfetch : s.fetch = some (.transaction tr) := by simp only [State.fetch, ha]
      cases hd : decode (.transaction tr) with
      | ok i => exact .inr (.inl ⟨i, engineOwn_of_transaction hd, step_of_fetch hfetch hd⟩)
      | error r =>
        rcases decode_transaction_cases tr with ⟨-, hd'⟩ | ⟨-, hd'⟩ | ⟨-, hd'⟩ | ⟨-, hd'⟩ <;> cases hd'.symm.trans hd
        exact .inr (.inr (.inl (step_of_fetch_reject hfetch hd)))
    | reset =>
      exact .inr (.inr (.inr (.inl (by simp only [step, State.fetch, State.passEvent, ha]))))
    | select k =>
      exact .inr (.inr (.inr (.inr ⟨k, by simp only [step, State.fetch, State.passEvent, ha]⟩)))

/-- The engine's own step is a move of the engine, and touches nothing beside it. -/
theorem State.Inv.exists_move (h : s.Inv) (hmove : s.engineMoves) :
    ∃ f, step s = .next (s.advance.withEngine f) ∧ s.eng.Moves s.ksReady s.eng.phase f := by
  rw [step_of_engineMoves hmove]
  exact Engine.PhaseInv.movesFrom (s := s.advance) h.1.phase

theorem State.Inv.move_of_step (h : s.Inv) (hmove : s.engineMoves) (hstep : step s = .next t) :
    t = s.advance.withEngine t.eng ∧ s.eng.Moves s.ksReady s.eng.phase t.eng := by
  obtain ⟨f, hf, hmoves⟩ := h.exists_move hmove
  cases hf.symm.trans hstep
  exact ⟨rfl, hmoves⟩

theorem State.Inv.withEngine (h : s.Inv) {f : Engine} (hf : f.Inv s.ksReady) : (s.withEngine f).Inv := ⟨hf, h.2⟩

theorem State.Inv.select (h : s.Inv) (k : Nat) : (s.select k).Inv := by
  unfold State.select
  split
  next e he =>
    refine ⟨h.2 e (List.mem_of_getElem? he), fun f hf => ?_⟩
    rcases List.mem_or_eq_of_mem_set hf with hf | rfl
    · exact h.2 f hf
    · exact h.1
  next => exact h

theorem State.resetAll_inv (s : State) : s.resetAll.Inv := by
  refine ⟨Engine.reset_inv _, fun f hf => ?_⟩
  obtain ⟨-, -, rfl⟩ := List.mem_map.1 hf
  exact Engine.reset_inv _

/-! ### The host port -/

/-- An engine that meets the invariant meets it when the keystream is initialised. -/
theorem Engine.Inv.mono {r : Bool} {e : Engine} (h : e.Inv r) : e.Inv true := by
  refine ⟨h.err, ?_⟩
  have hphase := h.phase
  cases hp : e.phase <;> simp only [Engine.PhaseInv, hp] at hphase ⊢
  case idle | chk | done => exact hphase
  case dpri => exact ⟨hphase.1, hphase.2.mono⟩
  case dext | thr =>
    obtain ⟨hchecked, hrest⟩ := hphase
    exact ⟨hchecked.mono, hrest⟩
  case ld =>
    obtain ⟨i, x, c, hscan, hrest⟩ := hphase
    exact ⟨i, x, c, hscan.mono, hrest⟩
  case tst | pull | refill | red =>
    obtain ⟨i, x, c, u, hscan, hrest⟩ := hphase
    exact ⟨i, x, c, u, hscan.mono, hrest⟩
  case fin =>
    obtain ⟨x, c, hscan, hrest⟩ := hphase
    exact ⟨x, c, hscan.mono, hrest⟩

/-- The flag can only rise. -/
theorem Engine.Inv.or {r : Bool} {e : Engine} (h : e.Inv r) (b : Bool) : e.Inv (r || b) := by
  cases b with
  | false => rwa [Bool.or_false]
  | true => rw [Bool.or_true]; exact h.mono

/-- A call begins fresh, without an error (10_state.md R47). -/
theorem Engine.accept_inv (r : Bool) (e : Engine) (w : Width) : (e.accept w).Inv r :=
  ⟨fun _ => rfl, rfl, rfl, rfl, rfl, rfl, rfl, rfl, rfl, rfl, rfl⟩

/-- Of a resting engine the invariant speaks of no argument. -/
theorem Engine.Inv.setRegister {r : Bool} {e : Engine} (h : e.Inv r) (hb : e.busy = false) (a v : Nat) :
    (e.setRegister a v).Inv r := by
  have hphase := h.phase
  refine ⟨by simpa using h.err, ?_⟩
  have hrest : ¬ (e.phase ≠ .idle ∧ e.phase ≠ .done) := by rw [← Engine.busy_iff]; simp [hb]
  unfold Engine.PhaseInv at hphase ⊢
  rw [Engine.setRegister_phase]
  by_cases hidle : e.phase = .idle
  · simpa [hidle] using hphase
  · have hdone : e.phase = .done := by_contra fun hne => hrest ⟨hidle, hne⟩
    simpa [hdone] using hphase

/-- A host-port instruction keeps the invariant: it responds, raises the flag, begins a call, or writes an argument of
a resting engine. -/
theorem State.Inv.exec_host {i : Instr} (h : s.Inv) (hm : i.engineOwn = false) (hexec : exec i s = .next t) :
    t.Inv := by
  rcases exec_host_cases hm hexec with ⟨r, rfl⟩ | ⟨-, -, rfl⟩ | ⟨-, -, rfl⟩ | ⟨-, -, rfl⟩ | ⟨hb, a, v, -, -, rfl⟩
  · exact h
  · exact ⟨h.1.or _, fun e he => (h.2 e he).or _⟩
  · exact h.withEngine (Engine.accept_inv _ _ _)
  · exact h.withEngine (Engine.accept_inv _ _ _)
  · exact h.withEngine (h.1.setRegister hb a v)

/-- Settles O44: each of the five things a step can be keeps the invariant. -/
theorem everyStepKeepsTheInvariant : Obligations.EveryStepKeepsTheInvariant := by
  unfold Obligations.EveryStepKeepsTheInvariant
  intro s t hinv hstep
  have hadvance : s.advance.Inv := hinv
  rcases step_eq_cases s with ⟨hmove, -⟩ | ⟨i, hm, hi⟩ | hnak | hreset | ⟨k, hselect⟩
  · obtain ⟨ht, hmoves⟩ := hinv.move_of_step hmove hstep
    rw [ht]
    exact hadvance.withEngine (hmoves.inv hinv.1)
  · exact hadvance.exec_host hm (hi.symm.trans hstep)
  · cases hnak.symm.trans hstep; exact hadvance
  · cases hreset.symm.trans hstep; exact s.advance.resetAll_inv
  · cases hselect.symm.trans hstep; exact hadvance.select k

/-- Settles O45: the engine has a move, and the other four things a step can be always go on. -/
theorem theMachineNeverStops : Obligations.TheMachineNeverStops := by
  unfold Obligations.TheMachineNeverStops
  intro s hinv
  rcases step_eq_cases s with ⟨hmove, -⟩ | ⟨i, hm, hi⟩ | hnak | hreset | ⟨k, hselect⟩
  · obtain ⟨f, hf, -⟩ := hinv.exists_move hmove
    exact ⟨_, hf⟩
  · rw [hi]; exact exec_host_next i s.advance hm
  · exact ⟨_, hnak⟩
  · exact ⟨_, hreset⟩
  · exact ⟨_, hselect⟩

/-- Settles O46: the step is a move, a move follows the table, and the error code stands in `IDLE` alone. -/
theorem theTransitionTableHolds : Obligations.TheTransitionTableHolds := by
  unfold Obligations.TheTransitionTableHolds
  intro s t hinv hb hmove hstep
  obtain ⟨hidle, hdone⟩ := Engine.busy_iff.1 hb
  obtain ⟨-, hmoves⟩ := hinv.move_of_step hmove hstep
  exact ⟨hmoves.follows hidle hdone, hmoves.err_of_idle hidle rfl, (hmoves.inv hinv.1).err⟩

/-- Settles O48: at `FIN` every element of the buffer is final, and the step keeps the buffer. -/
theorem everyResultIsInRange : Obligations.EveryResultIsInRange := by
  unfold Obligations.EveryResultIsInRange
  intro s t hinv hfin hmove hstep
  obtain ⟨-, hmoves⟩ := hinv.move_of_step hmove hstep
  rw [hfin] at hmoves
  generalize t.eng = f at hmoves ⊢
  cases hmoves with
  | fin scan room => exact ⟨rfl, fun i hi => scan.primary.final i hi hi⟩

end

end Sys2Proof.Machine
end

section
/-! The closed form of a call (42_sampler_loop.md R169): each element takes the first of its candidates that is not
below the threshold. -/

namespace Sys2Proof.Machine

/-! ### Candidates -/

/-- The value under test after `n` replacements of element `i`, the extra stream being used from element `k` on: the
raw element, then the elements of the extra stream in order. -/
def Engine.candidate (e : Engine) (i k : Nat) : Nat → Nat
  | 0 => e.rawElem i
  | n + 1 => e.extraElem (k + n)

/-- The first `n` candidates of element `i` are rejected. -/
def Engine.Rejects (e : Engine) (i k n : Nat) : Prop := ∀ m, m < n → e.candidate i k m < e.threshold

section
variable {e f : Engine} {i k n k' n' : Nat} {vs : List Nat}

theorem Engine.candidate_lt (e : Engine) (i k n : Nat) : e.candidate i k n < 2 ^ e.wt.bits := by
  cases n with
  | zero => exact e.rawElem_lt i
  | succ n => exact e.extraElem_lt (k + n)

theorem Engine.rejects_zero (e : Engine) (i k : Nat) : e.Rejects i k 0 := fun m hm => absurd hm m.not_lt_zero

theorem Engine.Rejects.succ (h : e.Rejects i k n) (hn : e.candidate i k n < e.threshold) : e.Rejects i k (n + 1) := by
  intro m hm
  rcases Nat.lt_succ_iff_lt_or_eq.1 hm with hm | rfl
  · exact h m hm
  · exact hn

theorem Engine.rejects_succ_iff : e.Rejects i k (n + 1) ↔
    e.rawElem i < e.threshold ∧ ∀ m, m < n → e.extraElem (k + m) < e.threshold := by
  constructor
  · exact fun h => ⟨h 0 n.succ_pos, fun m hm => h (m + 1) (Nat.succ_lt_succ hm)⟩
  · rintro ⟨h0, hs⟩ m hm
    cases m with
    | zero => exact h0
    | succ m => exact hs m (Nat.lt_of_succ_lt_succ hm)

/-- The first accepted candidate is one and the same. -/
theorem Engine.Rejects.unique (h : e.Rejects i k n) (hn : e.threshold ≤ e.candidate i k n) (h' : e.Rejects i k n')
    (hn' : e.threshold ≤ e.candidate i k n') : n = n' := by
  rcases Nat.lt_trichotomy n n' with hlt | heq | hgt
  · exact absurd hn (Nat.not_le.2 (h' n hlt))
  · exact heq
  · exact absurd hn' (Nat.not_le.2 (h n' hgt))

/-- What is under test is a candidate whose predecessors were rejected. -/
theorem Engine.testing_iff :
    e.Testing i k n ↔ e.Rejects i k n ∧ e.u = some (BitVec.ofNat 64 (e.candidate i k n)) := by
  cases n with
  | zero => exact ⟨fun h => ⟨e.rejects_zero i k, h⟩, fun h => h.2⟩
  | succ n => rw [Engine.rejects_succ_iff, and_assoc]; rfl

/-- The scan goes on by the first accepted candidate, and uses one extra element for each one rejected. -/
theorem Engine.Scanned.element (h : e.Scanned i k vs) (hrejects : e.Rejects i k n)
    (hok : e.threshold ≤ e.candidate i k n) : e.Scanned (i + 1) (k + n) (vs ++ [e.candidate i k n]) := by
  cases n with
  | zero => exact .accepted h hok
  | succ n =>
    obtain ⟨hraw, hskipped⟩ := Engine.rejects_succ_iff.1 hrejects
    exact .replaced n h hraw hskipped hok

/-- And in no other way. -/
theorem Engine.Scanned.exists_element (h : e.Scanned (i + 1) k' vs) :
    ∃ k n ws, e.Scanned i k ws ∧ e.Rejects i k n ∧ e.threshold ≤ e.candidate i k n ∧ k' = k + n ∧
      vs = ws ++ [e.candidate i k n] := by
  cases h with
  | accepted before ok => exact ⟨_, 0, _, before, e.rejects_zero i _, ok, rfl, rfl⟩
  | replaced n before rejected skipped ok =>
    exact ⟨_, n + 1, _, before, Engine.rejects_succ_iff.2 ⟨rejected, skipped⟩, ok, rfl, rfl⟩

theorem Engine.scanned_zero_iff : e.Scanned 0 k vs ↔ k = 0 ∧ vs = [] := by
  constructor
  · intro h; cases h; exact ⟨rfl, rfl⟩
  · rintro ⟨rfl, rfl⟩; exact .start

/-- Every value taken is a value of the width. -/
theorem Engine.Scanned.lt (h : e.Scanned i k vs) : ∀ v ∈ vs, v < 2 ^ e.wt.bits := by
  induction i generalizing k vs with
  | zero => simp [(Engine.scanned_zero_iff.1 h).2]
  | succ i ih =>
    obtain ⟨j, n, ws, hws, -, -, -, rfl⟩ := h.exists_element
    intro v hv
    rcases List.mem_append.1 hv with hv | hv
    · exact ih hws v hv
    · rw [List.mem_singleton.1 hv]; exact e.candidate_lt i j n

/-- Settles O52, by induction on the number of elements: the scans before the last element agree, and so does the first
accepted candidate. -/
theorem theClosedFormIsAFunction : Obligations.TheClosedFormIsAFunction := by
  unfold Obligations.TheClosedFormIsAFunction
  intro e i
  induction i with
  | zero =>
    intro k k' vs vs' h h'
    obtain ⟨rfl, rfl⟩ := Engine.scanned_zero_iff.1 h
    obtain ⟨rfl, rfl⟩ := Engine.scanned_zero_iff.1 h'
    exact ⟨rfl, rfl⟩
  | succ i ih =>
    intro k k' vs vs' h h'
    obtain ⟨k₁, n₁, ws₁, hws₁, hrej₁, hok₁, rfl, rfl⟩ := h.exists_element
    obtain ⟨k₂, n₂, ws₂, hws₂, hrej₂, hok₂, rfl, rfl⟩ := h'.exists_element
    obtain ⟨rfl, rfl⟩ := ih k₁ k₂ ws₁ ws₂ hws₁ hws₂
    obtain rfl := hrej₁.unique hok₁ hrej₂ hok₂
    exact ⟨rfl, rfl⟩

/-! ### What depends on the arguments alone -/

theorem Engine.SameArgs.trans {g : Engine} (h : e.SameArgs f) (h' : f.SameArgs g) : e.SameArgs g :=
  ⟨h.seed.trans h'.seed, h.count.trans h'.count, h.lo.trans h'.lo, h.hi.trans h'.hi, h.wt.trans h'.wt⟩

theorem Engine.SameArgs.blockCount (h : e.SameArgs f) : e.blockCount = f.blockCount := by
  simp only [Engine.blockCount, Engine.byteCount, h.count, h.wt]

theorem Engine.SameArgs.threshold (h : e.SameArgs f) : e.threshold = f.threshold := by
  simp only [Engine.threshold, Engine.span, Engine.hiS, Engine.loS, Engine.hiU, Engine.loU, h.lo, h.hi, h.wt]

theorem Engine.SameArgs.resultOf (h : e.SameArgs f) : e.resultOf = f.resultOf := by
  funext v
  simp only [Engine.resultOf, Engine.span, Engine.hiS, Engine.loS, Engine.hiU, Engine.loU, h.lo, h.hi, h.wt]

theorem Engine.SameArgs.candidate (h : e.SameArgs f) (i k n : Nat) : e.candidate i k n = f.candidate i k n := by
  cases n <;> simp only [Engine.candidate, Engine.rawElem, Engine.extraElem, h.seed, h.wt, h.blockCount]

theorem Engine.Rejects.congr (h : e.Rejects i k n) (args : e.SameArgs f) : f.Rejects i k n := fun m hm => by
  rw [← args.candidate, ← args.threshold]
  exact h m hm

end

end Sys2Proof.Machine
end

section
/-! The engine's moves follow the closed form (42_sampler_loop.md R169, R176). -/

namespace Sys2Proof.Machine

/-- Between two elements: `i` of them have taken the values `vs` and used `k` extra elements. -/
structure Engine.BetweenAt (e : Engine) (i k : Nat) (vs : List Nat) : Prop where
  holds : ∃ x c, e.Holds i x c k vs
  scanned : e.Scanned i k vs
  last : e.Last vs

/-- On element `i`: `n` of its candidates are rejected and the next is in `U`. -/
structure Engine.TestingAt (e : Engine) (i k n : Nat) (vs : List Nat) : Prop where
  holds : ∃ x c, e.Holds i x c (k + n) vs
  scanned : e.Scanned i k vs
  rejects : e.Rejects i k n
  held : e.u = some (BitVec.ofNat 64 (e.candidate i k n))

section
variable {ready : Bool} {e f : Engine} {i x c k n u : Nat} {vs : List Nat}

/-! ### The engine of the closed form, in the model's terms -/

theorem Engine.traced_ld_iff (hp : e.phase = .ld) : e.Traced ↔ ∃ i k vs, e.BetweenAt i k vs := by
  simp only [Engine.Traced, hp]
  constructor
  · rintro ⟨i, x, c, k, vs, hholds, hscanned, hlast⟩
    exact ⟨i, k, vs, ⟨x, c, hholds⟩, hscanned, hlast⟩
  · rintro ⟨i, k, vs, ⟨x, c, hholds⟩, hscanned, hlast⟩
    exact ⟨i, x, c, k, vs, hholds, hscanned, hlast⟩

theorem Engine.traced_fin_iff (hp : e.phase = .fin) : e.Traced ↔ ∃ k vs, e.BetweenAt e.count.toNat k vs := by
  simp only [Engine.Traced, hp]
  constructor
  · rintro ⟨x, c, k, vs, hholds, hscanned, hlast⟩
    exact ⟨k, vs, ⟨x, c, hholds⟩, hscanned, hlast⟩
  · rintro ⟨k, vs, ⟨x, c, hholds⟩, hscanned, hlast⟩
    exact ⟨x, c, k, vs, hholds, hscanned, hlast⟩

theorem Engine.traced_testing_iff (hp : e.phase = .tst ∨ e.phase = .pull ∨ e.phase = .refill ∨ e.phase = .red) :
    e.Traced ↔ ∃ i k n vs, e.TestingAt i k n vs := by
  have htraced : e.Traced ↔
      ∃ i x c k vs n, e.Holds i x c (k + n) vs ∧ e.Scanned i k vs ∧ e.Testing i k n := by
    rcases hp with hp | hp | hp | hp <;> simp only [Engine.Traced, hp]
  simp only [htraced, Engine.testing_iff]
  constructor
  · rintro ⟨i, x, c, k, vs, n, hholds, hscanned, hrejects, hheld⟩
    exact ⟨i, k, n, vs, ⟨x, c, hholds⟩, hscanned, hrejects, hheld⟩
  · rintro ⟨i, k, n, vs, ⟨x, c, hholds⟩, hscanned, hrejects, hheld⟩
    exact ⟨i, x, c, k, vs, n, hholds, hscanned, hrejects, hheld⟩

/-! ### The updates of the scan -/

theorem Engine.Holds.withU (h : e.Holds i x c k vs) (v : Option (BitVec 64)) (p : Phase) :
    Engine.Holds { e with u := v, phase := p } i x c k vs :=
  ⟨h.idx, h.xctr, h.xcur, h.fits, h.cursor, h.pulls, h.inside, h.length, h.values⟩

theorem Engine.Holds.withCursor (h : e.Holds i x c k vs) (hc : c < e.wt.epb) (v : Option (BitVec 64)) (p : Phase) :
    Engine.Holds { e with u := v, xcur := some (BitVec.ofNat 5 (c + 1)), phase := p } i x (c + 1) (k + 1) vs :=
  ⟨h.idx, h.xctr, rfl, h.fits, hc, congrArg (· + 1) h.pulls, h.inside, h.length, h.values⟩

theorem Engine.Holds.withBlock {m : Memory} (h : e.Holds i x e.wt.epb k vs) (hfits : x + 1 < 2 ^ Config.counterBits) :
    Engine.Holds
      { e with xctr := some (BitVec.ofNat Config.counterBits (x + 1)), xblk := some m, xcur := some 0, phase := .tst }
      i (x + 1) 0 k vs :=
  ⟨h.idx, rfl, rfl, hfits, Nat.zero_le _, h.pulls.trans (Nat.succ_mul x e.wt.epb).symm, h.inside, h.length, h.values⟩

theorem Engine.Holds.withResult {m : Memory} (h : e.Holds i x c k vs) (hm : e.pbuf = some m) (hi : i < e.count.toNat)
    (v : Nat) :
    Engine.Holds
      { e with
        pbuf := some (Memory.writeLE m (i * e.wt.bytes) e.wt.bytes (e.resultOf v))
        idx := some (BitVec.ofNat 32 (i + 1))
        phase := .ld }
      (i + 1) x c k (vs ++ [v]) where
  idx := rfl
  xctr := h.xctr
  xcur := h.xcur
  fits := h.fits
  cursor := h.cursor
  pulls := h.pulls
  inside := hi
  length := by simp [h.length]
  values j w hj := by
    rw [Engine.elem_pbuf rfl, Memory.readLE_writeLE_resultOf, ← Engine.elem_pbuf hm]
    rw [List.getElem?_append, h.length] at hj
    split_ifs at hj with hlt
    · rw [if_neg hlt.ne']
      exact h.values j w hj
    · obtain ⟨hzero, rfl⟩ : j - i = 0 ∧ v = w := by simpa [List.getElem?_singleton] using hj
      rw [if_pos (by omega)]
      rfl

/-! ### The moves -/

/-- A place in the extra blocks, counted from block `b`, is a block and a cursor. -/
theorem eq_div_and_mod {b q j x c : Nat} (hc : c < q) (h : b * q + j = x * q + c) : b + j / q = x ∧ j % q = c := by
  have hq : 0 < q := Nat.zero_lt_of_lt hc
  have hdiv := congrArg (· / q) h
  have hmod := congrArg (· % q) h
  simp only [Nat.mul_add_mod_self_right, Nat.mod_eq_of_lt hc] at hmod
  simp only [Nat.add_comm (_ * q), Nat.add_mul_div_right _ _ hq, Nat.div_eq_of_lt hc] at hdiv
  exact ⟨by omega, hmod⟩

/-- With the cursor inside the block, the next extra element is its last when the elements used then fill a whole
number of blocks. -/
theorem Engine.Holds.dvd_iff (h : e.Holds i x c k vs) (hc : c < e.wt.epb) :
    e.wt.epb ∣ k + 1 ↔ c + 1 = e.wt.epb := by
  have hpulls := h.pulls
  rw [Nat.dvd_iff_mod_eq_zero]
  rcases Nat.eq_or_lt_of_le hc with hlast | hmore
  · have hnext := eq_div_and_mod (b := e.blockCount + Config.gapBlocks) (j := k + 1) (x := x + 1) e.wt.epb_pos
      (by rw [Nat.succ_mul]; omega)
    exact iff_of_true hnext.2 hlast
  · have hnext := eq_div_and_mod (b := e.blockCount + Config.gapBlocks) (j := k + 1) (x := x) hmore (by omega)
    exact iff_of_false (by rw [hnext.2]; exact c.succ_ne_zero) hmore.ne

/-- With the cursor at the block's end the elements used fill all blocks up to this one. -/
theorem Engine.Holds.block_of_end (h : e.Holds i x e.wt.epb k vs) :
    e.blockCount + Config.gapBlocks + k / e.wt.epb = x + 1 :=
  (eq_div_and_mod e.wt.epb_pos (h.pulls.trans (Nat.succ_mul x e.wt.epb).symm)).1

/-- The value under test is the candidate in `U`. -/
theorem Engine.TestingAt.eq_candidate (h : e.TestingAt i k n vs) {j : Nat} (test : e.TestAt j u) :
    u = e.candidate i k n :=
  ofNat_inj_of_lt (test.small.trans_le e.wt.two_pow_bits_le) ((e.candidate_lt i k n).trans_le e.wt.two_pow_bits_le)
    (test.held.symm.trans h.held)

/-- An update that keeps the arguments keeps where the engine is in the closed form. -/
theorem Engine.TestingAt.congr (h : e.TestingAt i k n vs) (args : e.SameArgs f) (hu : f.u = e.u)
    (hholds : ∃ x c, f.Holds i x c (k + n) vs) : f.TestingAt i k n vs where
  holds := hholds
  scanned := h.scanned.congr args
  rejects := h.rejects.congr args
  held := by rw [hu, h.held, args.candidate]

theorem Engine.Moves.thr_between (h : e.Moves ready .thr f) : f.phase = .ld ∧ f.BetweenAt 0 0 [] := by
  cases h with
  | thr checked primary extra start =>
    exact ⟨rfl, ⟨_, 0, rfl, extra.xctr, start, extra.fits, Nat.zero_le _, rfl, Nat.zero_le _, rfl, by simp⟩, .start,
      by simp [Engine.Last]⟩

theorem Engine.Moves.ld_cases (h : e.Moves ready .ld f) (hb : e.BetweenAt i k vs) :
    (i < e.count.toNat ∧ f.phase = .tst ∧ f.TestingAt i k 0 vs) ∨
    (i = e.count.toNat ∧ f.phase = .fin ∧ f.BetweenAt i k vs) := by
  have args := h.sameArgs
  obtain ⟨⟨x, c, hholds⟩, hscanned, hlast⟩ := hb
  cases h with
  | load scan room more =>
    obtain ⟨rfl, -, -⟩ := Engine.Holds.unique scan room.le hholds
    exact .inl ⟨more, rfl, ⟨x, c, hholds.withU _ _⟩, hscanned.congr args, Engine.rejects_zero _ _ _, rfl⟩
  | finish scan room =>
    obtain ⟨rfl, -, -⟩ := Engine.Holds.unique scan room.le hholds
    exact .inr ⟨rfl, rfl, ⟨x, c, hholds.withU _ _⟩, hscanned.congr args, hlast⟩

theorem Engine.Moves.tst_cases (h : e.Moves ready .tst f) (ht : e.TestingAt i k n vs) :
    (e.candidate i k n < e.threshold ∧ f.phase = .pull ∨ e.threshold ≤ e.candidate i k n ∧ f.phase = .red) ∧
    f.TestingAt i k n vs := by
  have args := h.sameArgs
  obtain ⟨x, c, hholds⟩ := ht.holds
  cases h with
  | reject scan room test low =>
    exact ⟨.inl ⟨ht.eq_candidate test ▸ low, rfl⟩, ht.congr args rfl ⟨x, c, hholds.withU _ _⟩⟩
  | accept scan room test high =>
    exact ⟨.inr ⟨ht.eq_candidate test ▸ high, rfl⟩, ht.congr args rfl ⟨x, c, hholds.withU _ _⟩⟩

/-- PULL puts the next candidate into `U`; the refill comes when the extra elements used fill a whole number of
blocks. -/
theorem Engine.Moves.pull_cases (h : e.Moves ready .pull f) (ht : e.TestingAt i k n vs) :
    (e.wt.epb ∣ k + n + 1 ∧ f.phase = .refill ∨ ¬ e.wt.epb ∣ k + n + 1 ∧ f.phase = .tst) ∧
    f.TestingAt i k (n + 1) vs := by
  have args := h.sameArgs
  obtain ⟨x, c, hholds⟩ := ht.holds
  cases h with
  | @pull i' x' c' u k' scan room test low pulls =>
    obtain ⟨rfl, rfl, rfl⟩ := Engine.Holds.unique scan room.le hholds
    obtain rfl : k' = k + n := Nat.add_left_cancel (pulls.trans hholds.pulls.symm)
    refine ⟨?_, ⟨_, _, hholds.withCursor room _ _⟩, ht.scanned.congr args,
      (ht.rejects.succ (ht.eq_candidate test ▸ low)).congr args, rfl⟩
    by_cases hlast : c + 1 = e.wt.epb
    · exact .inl ⟨(hholds.dvd_iff room).2 hlast, if_pos hlast⟩
    · exact .inr ⟨mt (hholds.dvd_iff room).1 hlast, if_neg hlast⟩

theorem Engine.Moves.refill_cases (h : e.Moves ready .refill f) (ht : e.TestingAt i k n vs) :
    (e.blockCount + Config.gapBlocks + (k + n) / e.wt.epb = 2 ^ Config.counterBits ∧ f.phase = .idle) ∨
    (f.phase = .tst ∧ f.TestingAt i k n vs) := by
  have args := h.sameArgs
  obtain ⟨x, c, hholds⟩ := ht.holds
  cases h with
  | exhausted scan test top =>
    obtain ⟨rfl, rfl, rfl⟩ := Engine.Holds.unique scan le_rfl hholds
    exact .inl ⟨hholds.block_of_end.trans top, rfl⟩
  | refill scan test fits covers bytes =>
    obtain ⟨rfl, rfl, rfl⟩ := Engine.Holds.unique scan le_rfl hholds
    exact .inr ⟨rfl, ht.congr args rfl ⟨_, _, hholds.withBlock fits⟩⟩

theorem Engine.Moves.red_between (h : e.Moves ready .red f) (ht : e.TestingAt i k n vs) :
    e.threshold ≤ e.candidate i k n ∧ f.phase = .ld ∧ f.BetweenAt (i + 1) (k + n) (vs ++ [e.candidate i k n]) := by
  have args := h.sameArgs
  obtain ⟨x, c, hholds⟩ := ht.holds
  cases h with
  | red scan room test high held =>
    obtain ⟨rfl, rfl, rfl⟩ := Engine.Holds.unique scan room.le hholds
    obtain rfl := ht.eq_candidate test
    refine ⟨high, rfl, ⟨_, _, hholds.withResult held test.within _⟩,
      (ht.scanned.element ht.rejects high).congr args, ?_⟩
    intro v hv
    obtain rfl : e.candidate i k n = v := by simpa using hv
    exact ht.held

end

end Sys2Proof.Machine
end

section
/-! The closed form along a run (42_sampler_loop.md R169, R172): it is kept by every step, read off at `FIN`, and
reached in a counted number of steps. -/

namespace Sys2Proof.Machine

/-! ### At every step -/

theorem Engine.Moves.traced {ready : Bool} {e f : Engine} {p : Phase} (h : e.Moves ready p f) (hp : e.phase = p)
    (he : e.Traced) : f.Traced := by
  cases p with
  | idle => cases h; exact he
  | done => cases h; exact he
  | chk => cases h <;> exact trivial
  | dpri => cases h; exact trivial
  | dext => cases h; exact trivial
  | fin => cases h; exact trivial
  | thr =>
    obtain ⟨hld, hbetween⟩ := h.thr_between
    exact (Engine.traced_ld_iff hld).2 ⟨_, _, _, hbetween⟩
  | ld =>
    obtain ⟨i, k, vs, hbetween⟩ := (Engine.traced_ld_iff hp).1 he
    rcases h.ld_cases hbetween with ⟨-, htst, htesting⟩ | ⟨rfl, hfin, hbetween⟩
    · exact (Engine.traced_testing_iff (.inl htst)).2 ⟨_, _, _, _, htesting⟩
    · rw [h.sameArgs.count] at hbetween
      exact (Engine.traced_fin_iff hfin).2 ⟨_, _, hbetween⟩
  | tst =>
    obtain ⟨i, k, n, vs, htesting⟩ := (Engine.traced_testing_iff (.inl hp)).1 he
    obtain ⟨⟨-, hpull⟩ | ⟨-, hred⟩, htesting⟩ := h.tst_cases htesting
    · exact (Engine.traced_testing_iff (.inr (.inl hpull))).2 ⟨_, _, _, _, htesting⟩
    · exact (Engine.traced_testing_iff (.inr (.inr (.inr hred)))).2 ⟨_, _, _, _, htesting⟩
  | pull =>
    obtain ⟨i, k, n, vs, htesting⟩ := (Engine.traced_testing_iff (.inr (.inl hp))).1 he
    obtain ⟨⟨-, hrefill⟩ | ⟨-, htst⟩, htesting⟩ := h.pull_cases htesting
    · exact (Engine.traced_testing_iff (.inr (.inr (.inl hrefill)))).2 ⟨_, _, _, _, htesting⟩
    · exact (Engine.traced_testing_iff (.inl htst)).2 ⟨_, _, _, _, htesting⟩
  | refill =>
    obtain ⟨i, k, n, vs, htesting⟩ := (Engine.traced_testing_iff (.inr (.inr (.inl hp)))).1 he
    rcases h.refill_cases htesting with ⟨-, hidle⟩ | ⟨htst, htesting⟩
    · simp [Engine.Traced, hidle]
    · exact (Engine.traced_testing_iff (.inl htst)).2 ⟨_, _, _, _, htesting⟩
  | red =>
    obtain ⟨i, k, n, vs, htesting⟩ := (Engine.traced_testing_iff (.inr (.inr (.inr hp)))).1 he
    obtain ⟨-, hld, hbetween⟩ := h.red_between htesting
    exact (Engine.traced_ld_iff hld).2 ⟨_, _, _, hbetween⟩

/-- Settles O49: the engine's step is a move, and every move follows the closed form. -/
theorem everyStepKeepsTheClosedForm : Obligations.EveryStepKeepsTheClosedForm := by
  unfold Obligations.EveryStepKeepsTheClosedForm
  intro s t hinv htraced hmove hstep
  obtain ⟨-, hmoves⟩ := hinv.move_of_step hmove hstep
  exact hmoves.traced rfl htraced

/-! ### At the end of a call -/

theorem Engine.BetweenAt.toNat_last {e : Engine} {i k v : Nat} {vs : List Nat} (h : e.BetweenAt i k vs)
    (hv : vs.getLast? = some v) : ∃ u : BitVec 64, e.u = some u ∧ u.toNat = v := by
  have hlt : v < 2 ^ e.wt.bits := h.scanned.lt v (List.mem_of_getLast? hv)
  exact ⟨_, h.last v hv, ofNat_toNat_of_lt (hlt.trans_le e.wt.two_pow_bits_le)⟩

/-- Settles O50: FIN keeps all that the closed form says, and the cursor in the extra blocks is the division of the
count of extra elements by `EPB`. -/
theorem aCallEndsInTheClosedForm : Obligations.ACallEndsInTheClosedForm := by
  unfold Obligations.ACallEndsInTheClosedForm
  intro s t hinv htraced hfin hmove hstep
  obtain ⟨-, hmoves⟩ := hinv.move_of_step hmove hstep
  obtain ⟨k, vs, hbetween⟩ := (Engine.traced_fin_iff hfin).1 htraced
  obtain ⟨x, c, hholds⟩ := hbetween.holds
  have hscanned := hbetween.scanned.congr hmoves.sameArgs
  rw [hfin] at hmoves
  generalize t.eng = f at hmoves hscanned ⊢
  cases hmoves with
  | fin scan room =>
    obtain ⟨-, rfl, rfl⟩ := Engine.Holds.unique scan room.le hholds
    obtain ⟨hx, hc⟩ := eq_div_and_mod room hholds.pulls
    have hidx : s.eng.idx = some s.eng.count := by rw [hholds.idx, BitVec.ofNat_toNat, BitVec.setWidth_eq]
    refine ⟨k, vs, _, _, rfl, hscanned, hholds.length, hholds.values, hidx, fun v hv => hbetween.toNat_last hv,
      hholds.xctr, hholds.xcur, ?_, ?_⟩
    · rw [ofNat_toNat_of_lt hholds.fits]; exact hx.symm
    · rw [ofNat_toNat_of_lt (room.trans s.eng.wt.epb_lt)]; exact hc.symm

/-! ### The engine left to itself -/

theorem State.run_add {s t : State} {n : Nat} (h : s.run n = .next t) (m : Nat) : s.run (n + m) = t.run m := by
  induction n generalizing s with
  | zero => cases h; rw [Nat.zero_add]
  | succ n ih =>
    rw [Nat.succ_add]
    cases hstep : step s <;> simp only [State.run, hstep] at h ⊢
    · exact ih h
    · cases h
    · cases h

theorem State.run_one (s : State) : s.run 1 = step s := by
  simp only [State.run]
  cases step s <;> rfl

/-- After `n` steps of the engine left to itself it is in phase `p`, in the same call, and meets `Q`. -/
def State.Reaches (s : State) (n : Nat) (p : Phase) (Q : Engine → Prop) : Prop :=
  ∃ t, s.run n = .next t ∧ t.agenda = [] ∧ t.Inv ∧ s.eng.SameArgs t.eng ∧ t.eng.phase = p ∧ Q t.eng

/-- When element `i` is reached with `k` extra elements used: three steps of set-up, three for each element, two for
each extra element, and one for each refill (70_reset_and_hazards.md R262). -/
def Engine.clock (e : Engine) (i k : Nat) : Nat := 3 + 3 * i + 2 * k + k / e.wt.epb

section
variable {s : State} {n i k : Nat} {vs : List Nat}

theorem State.Reaches.step {p q : Phase} {Q R : Engine → Prop} (h : s.Reaches n p Q)
    (hmoves : ∀ ready e f, s.eng.SameArgs e → Q e → e.Moves ready p f → f.phase = q ∧ R f) :
    s.Reaches (n + 1) q R := by
  obtain ⟨t, hrun, hagenda, hinv, hargs, rfl, hQ⟩ := h
  obtain ⟨f, hstep, hmove⟩ := hinv.exists_move (.inl hagenda)
  obtain ⟨hq, hR⟩ := hmoves _ _ _ hargs hQ hmove
  refine ⟨t.advance.withEngine f, ?_, ?_, ?_, hargs.trans hmove.sameArgs, hq, hR⟩
  · rw [State.run_add hrun, State.run_one, hstep]
  · simp [hagenda]
  · exact everyStepKeepsTheInvariant _ _ hinv hstep

/-- The set-up takes three steps. -/
theorem reaches_start (hinv : s.Inv) (hp : s.eng.phase = .dpri) (ha : s.agenda = []) :
    s.Reaches (s.eng.clock 0 0) .ld (fun e => e.BetweenAt 0 0 []) := by
  have hclock : s.eng.clock 0 0 = 0 + 1 + 1 + 1 := by simp [Engine.clock]
  have hdpri : s.Reaches 0 .dpri fun _ => True := ⟨s, rfl, ha, hinv, ⟨rfl, rfl, rfl, rfl, rfl⟩, hp, trivial⟩
  have hdext : s.Reaches (0 + 1) .dext fun _ => True :=
    hdpri.step fun _ _ _ _ _ hm => by cases hm; exact ⟨rfl, trivial⟩
  have hthr : s.Reaches (0 + 1 + 1) .thr fun _ => True :=
    hdext.step fun _ _ _ _ _ hm => by cases hm; exact ⟨rfl, trivial⟩
  rw [hclock]
  exact hthr.step fun _ _ _ _ _ hm => hm.thr_between

/-- A refill adds a step to the two of an extra element. -/
theorem Engine.clock_succ (e : Engine) (i k : Nat) :
    e.clock i (k + 1) = e.clock i k + 2 + if e.wt.epb ∣ k + 1 then 1 else 0 := by
  have hdiv : (k + 1) / e.wt.epb = k / e.wt.epb + if e.wt.epb ∣ k + 1 then 1 else 0 := Nat.succ_div
  simp only [Engine.clock, hdiv]
  omega

/-- A rejected candidate is replaced by the next, with a refill when it was the last of its block. -/
theorem reaches_next_candidate (h : s.Reaches (s.eng.clock i (k + n) + 1) .tst (fun e => e.TestingAt i k n vs))
    (hlow : s.eng.candidate i k n < s.eng.threshold)
    (hfits : s.eng.blockCount + 1 + (k + n + 1) / s.eng.wt.epb < 2 ^ 64) :
    s.Reaches (s.eng.clock i (k + n + 1) + 1) .tst (fun e => e.TestingAt i k (n + 1) vs) := by
  have hpull : s.Reaches (s.eng.clock i (k + n) + 2) .pull (fun e => e.TestingAt i k n vs) := by
    refine h.step fun _ e f args htesting hm => ?_
    rw [args.candidate, args.threshold] at hlow
    obtain ⟨⟨-, hpull⟩ | ⟨hhigh, -⟩, htesting⟩ := hm.tst_cases htesting
    · exact ⟨hpull, htesting⟩
    · omega
  rw [Engine.clock_succ]
  by_cases hlast : s.eng.wt.epb ∣ k + n + 1
  · rw [if_pos hlast]
    have hrefill : s.Reaches (s.eng.clock i (k + n) + 2 + 1) .refill (fun e => e.TestingAt i k (n + 1) vs) := by
      refine hpull.step fun _ e f args htesting hm => ?_
      obtain ⟨⟨-, hrefill⟩ | ⟨hmore, -⟩, htesting⟩ := hm.pull_cases htesting
      · exact ⟨hrefill, htesting⟩
      · exact absurd (args.wt ▸ hlast) hmore
    refine hrefill.step fun _ e f args htesting hm => ?_
    rcases hm.refill_cases htesting with ⟨htop, -⟩ | htst
    · rw [← args.blockCount, ← args.wt] at htop
      exact absurd htop hfits.ne
    · exact htst
  · rw [if_neg hlast]
    refine hpull.step fun _ e f args htesting hm => ?_
    obtain ⟨⟨hblock, -⟩ | ⟨-, htst⟩, htesting⟩ := hm.pull_cases htesting
    · exact absurd (args.wt ▸ hblock) hlast
    · exact ⟨htst, htesting⟩

/-- From the start of an element to a candidate all of whose predecessors are rejected. -/
theorem reaches_candidate (h : s.Reaches (s.eng.clock i k) .ld (fun e => e.BetweenAt i k vs))
    (hi : i < s.eng.count.toNat) (hrejects : s.eng.Rejects i k n)
    (hfits : s.eng.blockCount + 1 + (k + n) / s.eng.wt.epb < 2 ^ 64) :
    s.Reaches (s.eng.clock i (k + n) + 1) .tst (fun e => e.TestingAt i k n vs) := by
  induction n with
  | zero =>
    refine h.step fun _ e f args hbetween hm => ?_
    rcases hm.ld_cases hbetween with ⟨-, htst, htesting⟩ | ⟨hend, -, -⟩
    · exact ⟨htst, htesting⟩
    · rw [← args.count] at hend; omega
  | succ n ih =>
    have hle : (k + n) / s.eng.wt.epb ≤ (k + (n + 1)) / s.eng.wt.epb := Nat.div_le_div_right (by omega)
    have htst := ih (fun m hm => hrejects m (by omega)) (by omega)
    exact reaches_next_candidate htst (hrejects n n.lt_succ_self) hfits

/-- An accepted candidate is reduced in two steps more. -/
theorem reaches_element (h : s.Reaches (s.eng.clock i (k + n) + 1) .tst (fun e => e.TestingAt i k n vs))
    (hok : s.eng.threshold ≤ s.eng.candidate i k n) :
    s.Reaches (s.eng.clock (i + 1) (k + n)) .ld
      (fun e => e.BetweenAt (i + 1) (k + n) (vs ++ [s.eng.candidate i k n])) := by
  have hclock : s.eng.clock (i + 1) (k + n) = s.eng.clock i (k + n) + 1 + 1 + 1 := by
    simp only [Engine.clock]; omega
  have hred : s.Reaches (s.eng.clock i (k + n) + 1 + 1) .red (fun e => e.TestingAt i k n vs) := by
    refine h.step fun _ e f args htesting hm => ?_
    rw [args.candidate, args.threshold] at hok
    obtain ⟨⟨hlow, -⟩ | ⟨-, hred⟩, htesting⟩ := hm.tst_cases htesting
    · omega
    · exact ⟨hred, htesting⟩
  rw [hclock]
  refine hred.step fun _ e f args htesting hm => ?_
  rw [args.candidate]
  exact (hm.red_between htesting).2

/-- As far as the closed form has values, the engine gets there. -/
theorem reaches_scanned (hinv : s.Inv) (hp : s.eng.phase = .dpri) (ha : s.agenda = []) (h : s.eng.Scanned i k vs)
    (hi : i ≤ s.eng.count.toNat) (hfits : s.eng.blockCount + 1 + k / s.eng.wt.epb < 2 ^ 64) :
    s.Reaches (s.eng.clock i k) .ld (fun e => e.BetweenAt i k vs) := by
  induction i generalizing k vs with
  | zero =>
    obtain ⟨rfl, rfl⟩ := Engine.scanned_zero_iff.1 h
    exact reaches_start hinv hp ha
  | succ i ih =>
    obtain ⟨j, n, ws, hws, hrejects, hok, rfl, rfl⟩ := h.exists_element
    have hle : j / s.eng.wt.epb ≤ (j + n) / s.eng.wt.epb := Nat.div_le_div_right (by omega)
    exact reaches_element (reaches_candidate (ih hws (by omega) (by omega)) hi hrejects hfits) hok

/-- LD at the end of the scan and FIN are the last two steps. -/
theorem reaches_done (h : s.Reaches (s.eng.clock s.eng.count.toNat k) .ld
      (fun e => e.BetweenAt s.eng.count.toNat k vs)) :
    s.Reaches (s.eng.clock s.eng.count.toNat k + 1 + 1) .done
      (fun e => ∀ i v, vs[i]? = some v → e.elem .pbuf i = some (e.resultOf v)) := by
  have hfin : s.Reaches (s.eng.clock s.eng.count.toNat k + 1) .fin
      (fun e => e.BetweenAt s.eng.count.toNat k vs) := by
    refine h.step fun _ e f args hbetween hm => ?_
    rcases hm.ld_cases hbetween with ⟨hmore, -, -⟩ | ⟨-, hfin⟩
    · rw [← args.count] at hmore; omega
    · exact hfin
  refine hfin.step fun _ e f args hbetween hm => ?_
  obtain ⟨x, c, hholds⟩ := hbetween.holds
  cases hm
  exact ⟨rfl, hholds.values⟩

/-- Settles O51: the engine reaches the end of the scan and then `DONE`, where no error stands. -/
theorem aCallCompletes : Obligations.ACallCompletes := by
  unfold Obligations.ACallCompletes
  intro s k vs hinv hp ha hscanned hfits
  have hclock : 5 + 3 * s.eng.count.toNat + 2 * k + k / s.eng.wt.epb = s.eng.clock s.eng.count.toNat k + 1 + 1 := by
    simp only [Engine.clock]; omega
  obtain ⟨t, hrun, -, hend, args, hdone, hvalues⟩ := reaches_done (reaches_scanned hinv hp ha hscanned le_rfl hfits)
  refine ⟨t, by rw [hclock, hrun], hdone, hend.1.err (by simp [hdone]), fun i v hv => ?_⟩
  rw [hvalues i v hv, ← args.resultOf]
  rfl

end

end Sys2Proof.Machine
end

section
/-! Two engines in the same call (43_host_interface.md R200): what a micro-operation does, and whether it stops, is
settled by the call's own state. The free draws enter a step through a register that holds no value alone, and a busy
engine of the invariant reads none. -/

namespace Sys2Proof.Machine

/-- Two machines with one flag and their engines in the same call. -/
structure State.SameCall (s s' : State) : Prop where
  eng   : s.eng.SameCall s'.eng
  ready : s.ksReady = s'.ksReady

/-- Both machines go on in the same call, or both stop for the same reason. -/
inductive Result.SameCall : Result → Result → Prop
  | next {t t' : State} (same : t.SameCall t') : Result.SameCall (.next t) (.next t')
  | fault (f : Fault) : Result.SameCall (.fault f) (.fault f)

/-! ### What the call reads -/

section
variable {e f : Engine}

/-- The bounds enter CHK's test at the call's width. -/
theorem Engine.SameCall.argumentsValid (h : e.SameCall f) : e.argumentsValid = f.argumentsValid := by
  rw [Bool.eq_iff_iff, Engine.argumentsValid_iff, Engine.argumentsValid_iff]
  simp only [Engine.loS, Engine.hiS, h.loU, h.hiU, h.wt, h.count]

theorem Engine.SameCall.byteLength (h : e.SameCall f) : e.byteLength = f.byteLength := by
  simp only [Engine.byteLength, h.count, h.wt]

theorem Engine.SameCall.buffer (h : e.SameCall f) (b : Buffer) : e.buffer b = f.buffer b := by
  cases b with
  | pbuf => exact h.pbuf
  | xblk => exact h.xblk

theorem Engine.SameCall.elemAddr (h : e.SameCall f) (j : Nat) : e.elemAddr j = f.elemAddr j := by
  simp only [Engine.elemAddr, h.wt]

theorem Engine.SameCall.elem (h : e.SameCall f) (b : Buffer) (j : Nat) : e.elem b j = f.elem b j := by
  simp only [Engine.elem, Engine.readBuffer, h.buffer, h.elemAddr, h.wt]

theorem Engine.SameCall.request (h : e.SameCall f) (dst : Buffer) (c : BitVec Config.counterBits) (n : BitVec 35) :
    e.request dst c n = f.request dst c n := by
  simp only [Engine.request, h.seed]

theorem Engine.SameCall.setBuffer (h : e.SameCall f) (b : Buffer) (m : Memory) :
    (e.setBuffer b m).SameCall (f.setBuffer b m) := by
  cases b with
  | pbuf => exact { h with pbuf := rfl }
  | xblk => exact { h with xblk := rfl }

/-- A fill keeps what lies above the request, which is the same in both. -/
theorem Engine.SameCall.filled (h : e.SameCall f) (r : Request) : (e.filled r).SameCall (f.filled r) := by
  simp only [Engine.filled, h.buffer]
  exact h.setBuffer _ _

/-- Acceptance keeps the arguments and puts the rest at fixed values (10_state.md R47). -/
theorem Engine.accept_sameCall {w : Width} (hseed : e.seed = f.seed) (hcount : e.count = f.count)
    (hlo : e.lo.toNat % 2 ^ w.bits = f.lo.toNat % 2 ^ w.bits)
    (hhi : e.hi.toNat % 2 ^ w.bits = f.hi.toNat % 2 ^ w.bits) : (e.accept w).SameCall (f.accept w) :=
  ⟨hseed, hcount, hlo, hhi, rfl, rfl, rfl, rfl, rfl, rfl, rfl, rfl, rfl, rfl, rfl, rfl, rfl⟩

end

/-- Registers that hold one value are one operand, whatever the free draws of the two machines. -/
theorem State.valueOf_congr {w n : Nat} {s s' : State} {o o' : Option (BitVec w)} {v : BitVec w} (h : o = o')
    (hv : o = some v) : s.valueOf n o = s'.valueOf n o' := by
  rw [← h, hv, State.valueOf_some, State.valueOf_some]

/-! ### Each operation -/

section
variable {s s' : State}

theorem Result.SameCall.ite {c c' : Prop} [Decidable c] [Decidable c'] {r r' q q' : Result} (hc : c ↔ c')
    (h₁ : Result.SameCall r r') (h₂ : Result.SameCall q q') :
    Result.SameCall (if c then r else q) (if c' then r' else q') := by
  by_cases h : c
  · rwa [if_pos h, if_pos (hc.1 h)]
  · rwa [if_neg h, if_neg (mt hc.2 h)]

theorem State.SameCall.withEngine (h : s.SameCall s') {e f : Engine} (hef : e.SameCall f) :
    (s.withEngine e).SameCall (s'.withEngine f) := ⟨hef, h.ready⟩

theorem State.SameCall.raise (h : s.SameCall s') (c : ErrorCode) :
    Result.SameCall (.next (s.raise c)) (.next (s'.raise c)) :=
  .next (h.withEngine { h.eng with err := rfl, pbuf := rfl, xblk := rfl, phase := rfl })

theorem State.SameCall.deriveThen (h : s.SameCall s') (dst : Buffer) (c : BitVec Config.counterBits) (n : BitVec 35)
    {k : State → Result} (hk : ∀ t t', t.SameCall t' → Result.SameCall (k t) (k t')) :
    Result.SameCall (s.deriveThen dst c n k) (s'.deriveThen dst c n k) := by
  unfold State.deriveThen
  rw [h.eng.request, h.ready]
  exact .ite .rfl (h.raise _) (.ite .rfl (h.raise _) (.ite .rfl (.fault _) (hk _ _ (h.withEngine (h.eng.filled _)))))

theorem State.SameCall.exec_chk (h : s.SameCall s') : Result.SameCall (exec .chk s) (exec .chk s') :=
  .ite (by rw [h.eng.argumentsValid]) (h.raise _) <|
    .ite (by rw [h.ready]) (h.raise _) <|
      .ite (by rw [h.eng.count])
        (.next (h.withEngine { h.eng with blen := rfl, pbuf := rfl, phase := rfl }))
        (.next (h.withEngine { h.eng with phase := rfl }))

theorem State.SameCall.exec_dpri (h : s.SameCall s') : Result.SameCall (exec .dpri s) (exec .dpri s') := by
  simp only [exec, execDpri, h.eng.byteLength]
  refine State.SameCall.deriveThen ?_ _ _ _ fun t t' ht => ?_
  · exact h.withEngine { h.eng with blen := rfl }
  · exact .next (ht.withEngine { ht.eng with phase := rfl })

theorem State.SameCall.exec_dext (h : s.SameCall s') {n : BitVec 35} (hn : s.eng.blen = some n) :
    Result.SameCall (exec .dext s) (exec .dext s') := by
  have hblen : s.blenValue = s'.blenValue := State.valueOf_congr h.eng.blen hn
  simp only [exec, execDext, hblen]
  refine State.SameCall.deriveThen ?_ _ _ _ fun t t' ht => ?_
  · exact h.withEngine { h.eng with pbc := rfl, xctr := rfl }
  · exact .next (ht.withEngine { ht.eng with xcur := rfl, phase := rfl })

/-- THR reads the bounds at the call's width, and a remainder by zero is free but for its dividend. -/
theorem State.SameCall.exec_thr (h : s.SameCall s') : Result.SameCall (exec .thr s) (exec .thr s') :=
  .next (h.withEngine { h.eng with
    range := by simp only [h.eng.hiU, h.eng.loU, h.eng.wt]
    min := by simp only [h.eng.hiU, h.eng.loU, h.eng.wt]
    idx := rfl
    phase := rfl })

theorem State.SameCall.exec_ld (h : s.SameCall s') {i : BitVec 32} (hi : s.eng.idx = some i) :
    Result.SameCall (exec .ld s) (exec .ld s') := by
  have hidx : s.idxValue = s'.idxValue := State.valueOf_congr h.eng.idx hi
  simp only [exec, execLd, hidx, h.eng.elem, h.eng.elemAddr]
  refine .ite (by rw [h.eng.count]) (.next (h.withEngine { h.eng with phase := rfl })) ?_
  cases s'.eng.elem .pbuf s'.idxValue.toNat with
  | some v => exact .next (h.withEngine { h.eng with u := rfl, phase := rfl })
  | none => exact .fault _

theorem State.SameCall.exec_tst (h : s.SameCall s') {u m : BitVec 64} (hu : s.eng.u = some u)
    (hm : s.eng.min = some m) : Result.SameCall (exec .tst s) (exec .tst s') := by
  have huval : s.uValue = s'.uValue := State.valueOf_congr h.eng.u hu
  have hmin : s.minValue = s'.minValue := State.valueOf_congr h.eng.min hm
  simp only [exec, execTst, huval, hmin]
  exact .next (h.withEngine { h.eng with phase := rfl })

theorem State.SameCall.exec_pull (h : s.SameCall s') {c : BitVec 5} (hc : s.eng.xcur = some c) :
    Result.SameCall (exec .pull s) (exec .pull s') := by
  have hxcur : s.xcurValue = s'.xcurValue := State.valueOf_congr h.eng.xcur hc
  simp only [exec, execPull, hxcur, h.eng.elem, h.eng.elemAddr]
  cases s'.eng.elem .xblk s'.xcurValue.toNat with
  | some v => exact .next (h.withEngine { h.eng with u := rfl, xcur := rfl, phase := by simp only [h.eng.wt] })
  | none => exact .fault _

theorem State.SameCall.exec_refill (h : s.SameCall s') {x : BitVec Config.counterBits} (hx : s.eng.xctr = some x) :
    Result.SameCall (exec .refill s) (exec .refill s') := by
  have hxctr : s.xctrValue = s'.xctrValue := State.valueOf_congr h.eng.xctr hx
  simp only [exec, execRefill, hxctr]
  refine .ite .rfl (h.raise _) (State.SameCall.deriveThen ?_ _ _ _ fun t t' ht => ?_)
  · exact h.withEngine { h.eng with xctr := rfl }
  · exact .next (ht.withEngine { ht.eng with xcur := rfl, phase := rfl })

theorem State.SameCall.exec_red (h : s.SameCall s') {i : BitVec 32} {u r : BitVec 64} (hi : s.eng.idx = some i)
    (hu : s.eng.u = some u) (hr : s.eng.range = some r) : Result.SameCall (exec .red s) (exec .red s') := by
  have hidx : s.idxValue = s'.idxValue := State.valueOf_congr h.eng.idx hi
  have huval : s.uValue = s'.uValue := State.valueOf_congr h.eng.u hu
  have hrange : s.rangeValue = s'.rangeValue := State.valueOf_congr h.eng.range hr
  have hreduced : s.reduced = s'.reduced := by simp only [State.reduced, huval, hrange, h.eng.loU, h.eng.wt]
  simp only [exec, execRed, hidx, hreduced, h.eng.pbuf, h.eng.elem, h.eng.elemAddr]
  split
  · exact .next (h.withEngine { h.eng with pbuf := by simp only [h.eng.wt], idx := rfl, phase := rfl })
  · exact .fault _

theorem State.SameCall.exec_fin (h : s.SameCall s') : Result.SameCall (exec .fin s) (exec .fin s') :=
  .next (h.withEngine { h.eng with xblk := rfl, phase := rfl })

/-! ### The step -/

/-- In each phase the invariant gives a value to every register the micro-operation reads. -/
theorem State.SameCall.exec_instr (h : s.SameCall s') (hinv : s.eng.PhaseInv s.ksReady) :
    Result.SameCall (exec s.eng.phase.instr s) (exec s.eng.phase.instr s') := by
  unfold Engine.PhaseInv at hinv
  cases hp : s.eng.phase with rw [hp] at hinv
  | idle => exact .next h
  | done => exact .next h
  | chk => exact h.exec_chk
  | dpri => exact h.exec_dpri
  | dext =>
    obtain ⟨-, hprimary, -⟩ := hinv
    exact h.exec_dext hprimary.blen
  | thr => exact h.exec_thr
  | ld =>
    obtain ⟨i, x, c, hscan, -⟩ := hinv
    exact h.exec_ld hscan.idx
  | tst =>
    obtain ⟨i, x, c, u, hscan, -, htest⟩ := hinv
    exact h.exec_tst htest.held hscan.min
  | pull =>
    obtain ⟨i, x, c, u, hscan, -⟩ := hinv
    exact h.exec_pull hscan.xcur
  | refill =>
    obtain ⟨i, x, c, u, hscan, -⟩ := hinv
    exact h.exec_refill hscan.extra.xctr
  | red =>
    obtain ⟨i, x, c, u, hscan, -, htest, -⟩ := hinv
    exact h.exec_red hscan.idx htest.held hscan.range
  | fin => exact h.exec_fin

/-- The engine's own step, whatever the rest of the two machines. -/
theorem State.SameCall.step (h : s.SameCall s') (hinv : s.Inv) (hmove : s.engineMoves) (hmove' : s'.engineMoves) :
    Result.SameCall (step s) (step s') := by
  have hadvance : s.advance.SameCall s'.advance := ⟨h.eng, h.ready⟩
  rw [step_of_engineMoves hmove, step_of_engineMoves hmove', ← h.eng.phase]
  exact hadvance.exec_instr hinv.1.phase

end

/-- Settles O53: the micro-operation of each phase keeps the call, and acceptance begins it. -/
theorem aCallDependsOnItsArgumentsAlone : Obligations.ACallDependsOnItsArgumentsAlone := by
  unfold Obligations.ACallDependsOnItsArgumentsAlone
  refine ⟨fun s t s' t' hinv _ hready hcall _ hmove hmove' hstep hstep' => ?_,
    fun e f w hseed hcount hlo hhi => Engine.accept_sameCall hseed hcount hlo hhi⟩
  have hresult := State.SameCall.step ⟨hcall, hready⟩ hinv hmove hmove'
  rw [hstep, hstep'] at hresult
  cases hresult with
  | next same => exact ⟨same.eng, same.ready⟩

end Sys2Proof.Machine
end

section
/-! What the host port answers (43_host_interface.md R192 to R194, R197, R198): one rule for each outcome of a read, a
write, a read-out and a command of an engine that is not busy. A busy engine's is `exec_host_nakBusy`. -/

namespace Sys2Proof.Machine

variable {s : State}

/-! ### Reads (R193) -/

theorem exec_rd_of_value {n v : Nat} (hn : n ≠ 12) (hb : s.eng.busy = false) (hr : s.eng.register n = some v) :
    exec (.rd n) s = .next (s.ackData v) := by
  simp [exec, execRd, hn, hb, hr]

theorem Engine.register_seed (e : Engine) {i : Nat} (h : i < 8) : e.register i = some (e.seed[i]).toNat := dif_pos h

theorem Engine.register_of_gt (e : Engine) {n : Nat} (h : 20 < n) : e.register n = none := by
  obtain ⟨k, rfl⟩ := Nat.exists_eq_add_of_le' h
  rfl

/-- A working register reads as the value it holds, when it holds one (10_state.md R44). -/
theorem exec_rd_of_working {n w : Nat} {o : Option (BitVec w)} (hreg : s.eng.register n = o.map BitVec.toNat)
    (hn : n ≠ 12) (hb : s.eng.busy = false) (v : BitVec w) (hv : o = some v) :
    exec (.rd n) s = .next (s.ackData v.toNat) :=
  exec_rd_of_value hn hb (by rw [hreg, hv]; rfl)

/-- Settles O9: each number is that of a register that holds a value. -/
theorem readGivesTheRegister : Obligations.ReadGivesTheRegister := by
  unfold Obligations.ReadGivesTheRegister
  intro s hb
  refine ⟨fun i h => exec_rd_of_value (by omega) hb (s.eng.register_seed h),
    exec_rd_of_value (by decide) hb rfl, exec_rd_of_value (by decide) hb rfl, exec_rd_of_value (by decide) hb rfl,
    ?_, ?_, ?_, ?_, ?_, ?_, ?_, ?_⟩
  all_goals exact exec_rd_of_working rfl (by decide) hb

/-- Settles O10: while busy every number but that of `STATUS` is refused, and otherwise each number that has no value
to read. -/
theorem readIsRefused : Obligations.ReadIsRefused := by
  unfold Obligations.ReadIsRefused
  refine fun s reg => ⟨fun hb hreg => exec_host_nakBusy rfl hb (by simpa using hreg), fun hb hreg => ?_⟩
  have hne : reg ≠ 12 := by omega
  refine exec_rd_of_no_value hne hb ?_
  rcases hreg with rfl | hgt | ⟨rfl, hnone⟩ | ⟨rfl, hnone⟩ | ⟨rfl, hnone⟩ | ⟨rfl, hnone⟩ | ⟨rfl, hnone⟩ |
    ⟨rfl, hnone⟩ | ⟨rfl, hnone⟩ | ⟨rfl, hnone⟩
  · rfl
  · exact s.eng.register_of_gt hgt
  all_goals exact congrArg (Option.map BitVec.toNat) hnone

/-! ### Writes (R192) -/

theorem registerWidth_of_lt {n : Nat} (h : n < 9) : registerWidth n = 32 := by
  interval_cases n <;> rfl

theorem exec_wr_of_fits {n v : Nat} (hb : s.eng.busy = false) (hn : n < 11) (hv : v < 2 ^ registerWidth n) :
    exec (.wr n v) s = .next (s.withEngine (s.eng.setRegister n v)).ack := by
  have hacc : ¬ (11 < n ∨ 2 ^ registerWidth n ≤ v) := by omega
  simp [exec, execWr, hb, hacc, hn.ne]

theorem exec_wr_of_too_wide {n v : Nat} (hb : s.eng.busy = false) (hv : 2 ^ registerWidth n ≤ v) :
    exec (.wr n v) s = .next (s.nak .nakAccess) := by
  simp [exec, execWr, hb, hv]

/-- A write of a word to `CMD`: one of the three commands, or refused (30_encoding.md R94). -/
theorem exec_wr_cmd {v : Nat} (hb : s.eng.busy = false) (hv : v < 2 ^ 32) :
    exec (.wr 11 v) s = .next
      (if v = 0x1 then s.commandKsinit
       else if v = 0x2 then s.commandGen .w32
       else if v = 0x12 then s.commandGen .w64
       else s.nak .nakIllegal) := by
  have hacc : ¬ (11 < 11 ∨ 2 ^ registerWidth 11 ≤ v) := by simpa [registerWidth] using hv
  simp only [exec, execWr, hb, hacc, apply_ite Host.Outcome.next]
  rfl

theorem Engine.setRegister_seed (e : Engine) {i : Nat} (h : i < 8) (v : Nat) :
    e.setRegister i v = { e with seed := e.seed.set i (BitVec.ofNat 32 v) } := dif_pos h

/-- Settles O11: the bound on the value is the register's width. -/
theorem writeSetsTheRegister : Obligations.WriteSetsTheRegister := by
  unfold Obligations.WriteSetsTheRegister
  refine fun s v hb => ⟨fun i h hv => ?_, fun hv => exec_wr_of_fits hb (by decide) hv,
    fun hv => exec_wr_of_fits hb (by decide) hv, fun hv => exec_wr_of_fits hb (by decide) hv⟩
  have hfits : v < 2 ^ registerWidth i := by rwa [registerWidth_of_lt (by omega)]
  rw [exec_wr_of_fits hb (by omega) hfits, s.eng.setRegister_seed h]
  rfl

/-- Settles O12: the three refusals in the order of 30_encoding.md R99. -/
theorem writeIsRefused : Obligations.WriteIsRefused := by
  unfold Obligations.WriteIsRefused
  refine fun s reg v => ⟨fun hb => exec_host_nakBusy rfl hb nofun, fun hb hacc => ?_,
    fun hb hreg hv hksinit hgen32 hgen64 => ?_⟩
  · rcases hacc with hgt | ⟨hlt, hv⟩ | ⟨rfl | rfl, hv⟩ | ⟨rfl, hv⟩
    · have hrefused := exec_wr_of_not_writable hgt v s
      rwa [hb] at hrefused
    · exact exec_wr_of_too_wide hb (by rwa [registerWidth_of_lt hlt])
    all_goals exact exec_wr_of_too_wide hb hv
  · rw [hreg, exec_wr_cmd hb hv, if_neg hksinit, if_neg hgen32, if_neg hgen64]
    rfl

/-! ### Commands (R194, R197) -/

theorem State.commandKsinit_of_not_busy (hb : s.eng.busy = false) :
    s.commandKsinit = ({ s with ksReady := s.ksReady || Config.initOk s.stepNo } : State).ack := by
  simp [State.commandKsinit, hb]

/-- Settles O13: both spellings are refused while busy, and otherwise the word selects the command. -/
theorem writeOfACommandWordIsTheCommand : Obligations.WriteOfACommandWordIsTheCommand := by
  unfold Obligations.WriteOfACommandWordIsTheCommand
  intro s
  cases hb : s.eng.busy with
  | true =>
    have hrefused (v : Nat) {i : Instr} (hm : i.engineOwn = false) (hi : i ≠ .rd 12) :
        exec (.wr 11 v) s = exec i s :=
      (exec_host_nakBusy (i := .wr 11 v) rfl hb nofun).trans (exec_host_nakBusy hm hb hi).symm
    exact ⟨hrefused _ rfl nofun, hrefused _ rfl nofun, hrefused _ rfl nofun⟩
  | false => exact ⟨exec_wr_cmd hb (by decide), exec_wr_cmd hb (by decide), exec_wr_cmd hb (by decide)⟩

/-- Settles O16: an accepted KSINIT takes the step's draw. -/
theorem ksinitSetsTheFlagAsDrawn : Obligations.KsinitSetsTheFlagAsDrawn := by
  unfold Obligations.KsinitSetsTheFlagAsDrawn
  exact fun s hb => congrArg Host.Outcome.next (State.commandKsinit_of_not_busy hb)

/-- Settles O18: the commands are host-port instructions, and none is a read of `STATUS`. -/
theorem commandsAreRefusedWhileBusy : Obligations.CommandsAreRefusedWhileBusy := by
  unfold Obligations.CommandsAreRefusedWhileBusy
  intro s i hb hi
  rcases hi with rfl | rfl | rfl <;> exact exec_host_nakBusy rfl hb nofun

/-! ### Read-outs (R198) -/

/-- The read-outs that 20_memory.md R68 allows. -/
theorem Engine.mayReadOut_iff {e : Engine} {a n : Nat} : e.mayReadOut a n = true ↔
    e.phase = .done ∧ n ∈ [1, 2, 4, 8] ∧ a % n = 0 ∧ ∃ b, e.blen = some b ∧ a + n ≤ b.toNat := by
  unfold Engine.mayReadOut
  split
  next b hp hb => simp [hp, hb, or_assoc, and_assoc]
  next hnone =>
    refine iff_of_false Bool.false_ne_true ?_
    rintro ⟨hp, -, -, b, hb, -⟩
    exact hnone b hp hb

theorem exec_rdp_of_not_allowed {a n : Nat} (hb : s.eng.busy = false) (h : ¬ s.eng.mayReadOut a n = true) :
    exec (.rdp a n) s = .next (s.nak .nakAccess) := by
  simp [exec, execRdp, hb, h]

theorem exec_rdp_of_value {a n v : Nat} (h : s.eng.mayReadOut a n = true)
    (hv : s.eng.readBuffer .pbuf a n = some v) : exec (.rdp a n) s = .next (s.ackData v) := by
  have hb : s.eng.busy = false := by simp [Engine.busy, (Engine.mayReadOut_iff.1 h).1, stateCode]
  simp [exec, execRdp, hb, h, hv]

/-- The bytes of a buffer composed little-endian (20_memory.md R66). -/
theorem Engine.readBuffer_eq_sum {e : Engine} {b : Buffer} {a n : Nat} {f : Nat → Byte} (hn : 0 < n)
    (h : ∀ j, j < n → e.byteOf b (a + j) = some (f j)) :
    e.readBuffer b a n = some (∑ j ∈ Finset.range n, (f j).toNat * 256 ^ j) := by
  unfold Engine.readBuffer
  cases hm : e.buffer b with
  | none =>
    have hfirst := h 0 hn
    simp [Engine.byteOf, hm] at hfirst
  | some m =>
    simp only [Engine.byteOf, hm] at h
    exact Memory.readLE_eq_sum m f n a h

/-- Settles O14: the read-out is one that R68 allows, and its bytes are all there. -/
theorem readOutGivesTheBytes : Obligations.ReadOutGivesTheBytes := by
  unfold Obligations.ReadOutGivesTheBytes
  intro s a n b f hdone hblen hn halign hinside hbytes
  have hallowed : s.eng.mayReadOut a n = true := Engine.mayReadOut_iff.2 ⟨hdone, hn, halign, b, hblen, hinside⟩
  have hpos : 0 < n := Nat.pos_of_ne_zero fun h => by simp [h] at hn
  exact exec_rdp_of_value hallowed (Engine.readBuffer_eq_sum hpos hbytes)

/-- Settles O15: each cause shuts the read-out out of those that R68 allows. -/
theorem readOutIsRefused : Obligations.ReadOutIsRefused := by
  unfold Obligations.ReadOutIsRefused
  refine fun s a n => ⟨fun hb => exec_host_nakBusy rfl hb nofun, fun hb hcause => ?_⟩
  refine exec_rdp_of_not_allowed hb fun hallowed => ?_
  obtain ⟨hdone, hn, halign, b, hblen, hinside⟩ := Engine.mayReadOut_iff.1 hallowed
  rcases hcause with hphase | hsize | hmisaligned | ⟨b', hblen', hbeyond⟩
  · exact hphase hdone
  · exact hsize hn
  · exact hmisaligned halign
  · cases hblen.symm.trans hblen'
    omega

end Sys2Proof.Machine
end

section
/-! The reset event (70_reset_and_hazards.md R250): nothing is decoded, and the step is the event. -/

namespace Sys2Proof.Machine

theorem State.fetch_of_reset {s : State} {rest : List Event} (ha : s.agenda = .reset :: rest) : s.fetch = none := by
  simp only [State.fetch, ha]

theorem State.passEvent_of_reset {s : State} {rest : List Event} (ha : s.agenda = .reset :: rest) :
    s.passEvent = s.advance.resetAll := by
  simp only [State.passEvent, ha]

theorem step_of_fetch_none {s : State} (hf : s.fetch = none) : step s = .next s.passEvent := by
  simp only [step, hf]

/-- Settles O2: nothing is fetched, so the step passes the event, which takes the reset off the agenda and resets
every engine and the flag. -/
theorem resetEventResetsEveryEngine : Obligations.ResetEventResetsEveryEngine := by
  unfold Obligations.ResetEventResetsEveryEngine
  intro s rest ha
  have hadv := State.advance_of_agenda (congrArg List.tail ha)
  rw [step_of_fetch_none (State.fetch_of_reset ha), State.passEvent_of_reset ha, hadv]
  rfl

end Sys2Proof.Machine
end
